-- ==== Sys2Proof/Word.lean ====
section
/-! DEFINITION. The words of the lane: command words, response data, nibbles, durations (R9, R59, R62). -/

namespace Sys2Proof

/-- A command word `W`, 40 bits, bit 0 the least significant (R12, R59). -/
abbrev CommandWord := BitVec 40

/-- The data word `DATA` of a response, 85 bits (R62). -/
abbrev ResponseData := BitVec 85

/-- A nibble, 4 bits, 0 to 15 (R9). -/
abbrev Nibble := BitVec 4

/-- A pulse duration in time units, 32 bits unsigned (R9). -/
abbrev Duration := BitVec 32

end Sys2Proof
end

