-- ==== Sys2Proof/Config.lean ====
section
/-! DEFINITION. What an integrator wires (the configuration record `cfg`, R7, R19 to R27) and the one free value (R126). -/

namespace Sys2Proof

/-- `VARIANT`: which layout `DECODE` applies (R24). The code 0 is reserved and names no variant. -/
inductive Variant where
  | v1
  | v2
  | v3
deriving DecidableEq, Repr

/-- `CKSEL`: the checksum algorithm (R26). The code 3 is reserved and names no algorithm. -/
inductive ChecksumAlg where
  /-- The source's "Variant A" (R104). -/
  | suma
  /-- The source's "Variant B/C" (R102). -/
  | sumn
  /-- The source's "Variant v1" (R103). -/
  | sumb
deriving DecidableEq, Repr

/-- `HUMPL`: the number of humidity digits of layout v3 (R27). -/
inductive HumidityDigits where
  | one
  | two
deriving DecidableEq, Repr

/-- `CTAP[0..3]`: bit `k` of a compacted nibble is bit `CTAP[k]` of the raw byte; 3 bits each, so always 0 to 7 (R27). -/
structure Taps where
  tap0 : BitVec 3
  tap1 : BitVec 3
  tap2 : BitVec 3
  tap3 : BitVec 3
deriving DecidableEq, Repr

/-- The configuration registers of a lane (R18 to R27). `HALF` and `SYNCLEN` are derived (R20, R22). No command writes one. -/
structure LaneConfig where
  /-- `FULL`: the full bit period in time units (R19). -/
  full : BitVec 32
  /-- `SYNCPAT`: the sync pattern (R21). -/
  syncpat : BitVec 64
  /-- `PAYLEN`: the number of logical nibbles of a payload (R23). -/
  paylen : BitVec 5
  /-- `VARIANT` (R24). -/
  variant : Variant
  /-- `DBL`: double-rate ingestion (R25). -/
  dbl : Bool
  /-- `CKSEL` (R26). -/
  cksel : ChecksumAlg
  /-- `CTAP` (R27). -/
  ctap : Taps
  /-- `HUMPL` (R27). -/
  humpl : HumidityDigits
deriving DecidableEq, Repr

/-- The same registers as raw wires, each of the width the spec gives it, reserved codes included (R19 to R27). -/
structure Straps where
  full : BitVec 32
  syncpat : BitVec 64
  paylen : BitVec 5
  variant : BitVec 2
  dbl : Bool
  cksel : BitVec 2
  ctap : Taps
  humpl : BitVec 2
deriving DecidableEq, Repr

/-- The unspecified `channel` of a v2 reading whose nibble 4 is 0 (R126, U1): a value nothing constrains, for each draw and
payload. Log entry 8. -/
opaque Config.freeChannel : Nat → List Nibble → Nibble

end Sys2Proof
end

