-- ==== Sys2Proof/Machine/Bits.lean ====
section
/-! DEFINITION. Number helpers of the notation section (R11, R12). -/

namespace Sys2Proof.Machine

/-- `bitlen(v)`: the least `n` with `v < 2^n` (R11). -/
def bitlen (v : Nat) : Nat := if v = 0 then 0 else Nat.log2 v + 1

/-- `|a − b|` on unbounded integers, for non-negative `a` and `b` (R11, R76). -/
def absDiff (a b : Nat) : Nat := (a - b) + (b - a)

/-- `mask(n) = 2^n − 1` as a 64-bit value, for `n ≤ 64` (R12). -/
def mask64 (n : Nat) : BitVec 64 := BitVec.ofNat 64 (2 ^ n - 1)

end Sys2Proof.Machine
end

