-- ==== Sys2Proof/Machine/Configuration.lean ====
section
/-! DEFINITION. What follows from the configuration registers: derived registers, codes, legality (R28), the presets (R8). -/

namespace Sys2Proof

open Sys2Proof.Machine (bitlen)

/-- `HALF = FULL // 2` (R20). -/
def LaneConfig.half (c : LaneConfig) : Nat := c.full.toNat / 2

/-- `SYNCLEN = bitlen(SYNCPAT)` (R22). -/
def LaneConfig.synclen (c : LaneConfig) : Nat := bitlen c.syncpat.toNat

/-- `PAYLEN` as a number of nibbles (R23). -/
def LaneConfig.len (c : LaneConfig) : Nat := c.paylen.toNat

/-- The number of nibbles that completes a fill: `PAYLEN`, or `2 × PAYLEN` in a double-rate lane (R91). -/
def LaneConfig.fillTarget (c : LaneConfig) : Nat := if c.dbl then 2 * c.len else c.len

/-- The legality predicate (R28). `VARIANT ∈ {1,2,3}`, `CKSEL ∈ {0,1,2}`, `HUMPL ∈ {1,2}` and `CTAP[k] ≤ 7` hold of every
`LaneConfig` by its type; what remains is the pattern and the length. -/
def LaneConfig.legal (c : LaneConfig) : Bool :=
  decide (c.syncpat ≠ 0#64) && decide (2 ≤ c.len) && decide (c.len ≤ if c.dbl then 14 else 28)

/-- The 2-bit code of `VARIANT` (R24), which is also `protocol_version`. -/
def Variant.code : Variant → BitVec 2
  | .v1 => 1#2
  | .v2 => 2#2
  | .v3 => 3#2

/-- The 2-bit code of `CKSEL` (R26). -/
def ChecksumAlg.code : ChecksumAlg → BitVec 2
  | .suma => 0#2
  | .sumn => 1#2
  | .sumb => 2#2

/-- The 2-bit code of `HUMPL`, which is the number of digits (R27). -/
def HumidityDigits.code : HumidityDigits → BitVec 2
  | .one => 1#2
  | .two => 2#2

/-- `HUMPL` as a number of BCD places (R124). -/
def HumidityDigits.places : HumidityDigits → Nat
  | .one => 1
  | .two => 2

/-- The variant of a code; the code 0 is reserved (R24). -/
def variantOfCode (code : BitVec 2) : Option Variant :=
  match code.toNat with
  | 1 => some .v1
  | 2 => some .v2
  | 3 => some .v3
  | _ => none

/-- The algorithm of a code; the code 3 is reserved (R26). -/
def checksumAlgOfCode (code : BitVec 2) : Option ChecksumAlg :=
  match code.toNat with
  | 0 => some .suma
  | 1 => some .sumn
  | 2 => some .sumb
  | _ => none

/-- The digit count of a code; only 1 and 2 are values of `HUMPL` (R27, R28). -/
def humidityDigitsOfCode (code : BitVec 2) : Option HumidityDigits :=
  match code.toNat with
  | 1 => some .one
  | 2 => some .two
  | _ => none

/-- The configuration the wires spell, `none` when they are not legal: a lane with an illegal configuration is not built
(R28, U7). -/
def Straps.build (r : Straps) : Option LaneConfig :=
  match variantOfCode r.variant, checksumAlgOfCode r.cksel, humidityDigitsOfCode r.humpl with
  | some v, some k, some h =>
    let c : LaneConfig := ⟨r.full, r.syncpat, r.paylen, v, r.dbl, k, r.ctap, h⟩
    if c.legal then some c else none
  | _, _, _ => none

/-- The wires of a configuration: the codes of R24, R26 and R27. -/
def LaneConfig.straps (c : LaneConfig) : Straps :=
  ⟨c.full, c.syncpat, c.paylen, c.variant.code, c.dbl, c.cksel.code, c.ctap, c.humpl.code⟩

/-- The reference taps `(0, 1, 2, 3)` (R27). -/
def referenceTaps : Taps := ⟨0#3, 1#3, 2#3, 3#3⟩

/-- Preset V1 (R8). `CTAP` and `HUMPL` are unused and hold their reference values (R27). -/
def presetV1 : LaneConfig := ⟨2923#32, 0xFFF#64, 8#5, .v1, false, .sumb, referenceTaps, .one⟩

/-- Preset V2 (R8). -/
def presetV2 : LaneConfig := ⟨976#32, 0x2AAAAAAAB33#64, 14#5, .v2, true, .sumn, referenceTaps, .one⟩

/-- Preset V3 (R8). -/
def presetV3 : LaneConfig := ⟨976#32, 0xFFFFFF5#64, 17#5, .v3, false, .sumn, referenceTaps, .one⟩

end Sys2Proof
end

