-- ==== Sys2Proof/Machine/State.lean ====
section
/-! DEFINITION. The state of a lane (R18), its outcomes, and the state after reset (R40). -/

namespace Sys2Proof.Machine

/-- `PHASE` (R29): `ac` is AwaitingClock (code 0), `ash` is AwaitingSecondHalf (code 1). -/
inductive Phase where
  | ac
  | ash
deriving DecidableEq, Repr

/-- The status `ST` of a response (R137). -/
inductive Status where
  /-- The command was executed. -/
  | ok
  /-- A read command was given while `HASPAYLOAD = 0`. -/
  | notReady
  /-- A read would touch an index at or above `PAYLEN`. -/
  | range
  /-- The word spells no command. -/
  | illegal
deriving DecidableEq, Repr

/-- A response (R62). -/
structure Response where
  st : Status
  data : ResponseData
deriving DecidableEq, Repr

/-- The payload buffer `PBUF`: the list of exactly `PPOS` nibbles, nibble `i` at address `i` (R33, R42). An address at or
above its length has no value. -/
abbrev Memory := List Nibble

/-- The capacity of the payload buffer: entries `PBUF[0]` to `PBUF[27]` (R33). -/
def capacity : Nat := 28

/-- The canonical form of the buffer. A list of nibbles has one form for each content; what is left to say is that no entry
lies outside the 28 the spec gives (R33). -/
abbrev Memory.wf (m : Memory) : Prop := m.length ≤ capacity

/-- Why the machine stops with a fault. The spec's core has none (R132, R138), and no run of a legal lane from reset meets one. -/
inductive Fault where
  /-- An append at index 28 or above, which is no entry of the buffer (R33). Raised by the append of `EDGE` only. Unreachable
  from reset in a legal lane (R91). Safe: the model stops where the spec gives no behaviour. -/
  | outsideBuffer
deriving DecidableEq, Repr

/-- Why the machine gives no meaning to a command. -/
inductive Refusal where
  /-- The instruction has no meaning in this model. Raised by no arm: every command has its meaning. -/
  | notModelled (mnemonic : String)
  /-- The lane's configuration is not legal, and the spec defines no behaviour of such a lane (R28, U7). Raised by every
  command through `onLane`. Safe: the model stops where the spec gives no behaviour. -/
  | illegalConfiguration
deriving DecidableEq, Repr

/-- The state of a lane: the configuration and the runtime fields of R18, the response port (R62), the command port as the
list of words the host will present (R59), and the model's own draw counter (log entry 8). -/
structure State where
  /-- The configuration registers (R18). -/
  cfg : LaneConfig
  /-- `PHASE` (R29). -/
  phase : Phase
  /-- `SYNCED` (R30). -/
  synced : Bool
  /-- `HASPAYLOAD` (R31). -/
  hasPayload : Bool
  /-- `SR`, the sync shift register (R32). -/
  sr : BitVec 64
  /-- `PBUF`, the payload buffer, with `PPOS` nibbles in it (R33, R34). -/
  pbuf : Memory
  /-- `NIB`, the nibble under assembly (R35). -/
  nib : BitVec 4
  /-- `NIBPOS`, how many bits of it have arrived (R36). -/
  nibpos : BitVec 2
  /-- The response to the last command (R62). -/
  resp : Response
  /-- The command words the host will present, oldest first (R37, R59). -/
  port : List CommandWord
  /-- The model's own counter of draws of the free `channel` value (R126). -/
  draw : Nat
deriving DecidableEq, Repr

/-- `PPOS`: the number of nibbles in `PBUF`, the index of the next append (R34). -/
def State.ppos (s : State) : Nat := s.pbuf.length

/-- A lane right after power-on reset, wired with `c` (R40, R151). The response, the port and the draw counter are the
model's choices (log entries 1, 2, 8). -/
def State.resetWith (c : LaneConfig) : State :=
  { cfg := c, phase := .ac, synced := false, hasPayload := false, sr := 0#64, pbuf := [], nib := 0#4, nibpos := 0#2,
    resp := ⟨.ok, 0#85⟩, port := [], draw := 0 }

/-- The machine right after reset: a lane wired as preset V1 (which configuration is wired is the model's choice, log entry 3). -/
def State.reset : State := State.resetWith presetV1

/-- A lane built from the wires of an integrator: none when they are not legal (R28, U7, R153). -/
def State.build (r : Straps) : Option State := r.build.map State.resetWith

end Sys2Proof.Machine
end

