-- ==== Sys2Proof/Machine/Ops.lean ====
section
/-! DEFINITION. The named operations: field updates, buffer accesses, responses and refusals (R13 to R15), the legality gate. -/

namespace Sys2Proof.Machine

/-- The outcome of a command or a step. -/
abbrev Outcome := Host.Outcome State Fault Refusal

/-! ### Field updates -/

/-- `PHASE <- p` (R13). -/
def State.withPhase (s : State) (p : Phase) : State := { s with phase := p }

/-- `SR <- v` (R13). -/
def State.withSr (s : State) (v : BitVec 64) : State := { s with sr := v }

/-- `NIB <- v; NIBPOS <- n` (R13). -/
def State.withNibble (s : State) (v : BitVec 4) (n : BitVec 2) : State := { s with nib := v, nibpos := n }

/-- Replace the contents of `PBUF`, and with it `PPOS` (R33, R34). -/
def State.withPbuf (s : State) (m : Memory) : State := { s with pbuf := m }

/-- The sync match: `SYNCED <- 1`, buffer and cursors cleared (R89). -/
def State.startFill (s : State) : State := { s with synced := true, pbuf := [], nib := 0#4, nibpos := 0#2 }

/-- `HASPAYLOAD <- 1` (R91). The capture takes the next draw of the free value (log entry 8). -/
def State.markReady (s : State) : State := { s with hasPayload := true, draw := s.draw + 1 }

/-- All eight runtime fields to their reset values (R40, R97); configuration untouched. -/
def State.clearRuntime (s : State) : State :=
  { s with phase := .ac, synced := false, hasPayload := false, sr := 0#64, pbuf := [], nib := 0#4, nibpos := 0#2 }

/-- The response of a command (R62). -/
def State.withResponse (s : State) (r : Response) : State := { s with resp := r }

/-- The command words still to come (R59). -/
def State.withPort (s : State) (p : List CommandWord) : State := { s with port := p }

/-- The power-on reset input during operation: the same effect as `RST` on the runtime state (R151). The response, the port
and the draw counter are left alone (log entry 14). -/
def State.powerOnReset (s : State) : State := s.clearRuntime

/-- The host presents one more command word after those already waiting (R59). -/
def State.give (s : State) (w : CommandWord) : State := { s with port := s.port ++ [w] }

/-! ### The payload buffer -/

/-- `PBUF[i]`: the nibble at address `i`, none at or above `PPOS` (R13, R42). -/
def State.nibbleAt (s : State) (i : Nat) : Option Nibble := s.pbuf[i]?

/-- `MemRead(i, n)`: the `n` nibbles from index `i`, defined only when `HASPAYLOAD = 1` and `i + n ≤ PPOS` (R14). -/
def memRead (s : State) (i n : Nat) : Option (List Nibble) :=
  if s.hasPayload = true ∧ i + n ≤ s.ppos then some ((s.pbuf.drop i).take n) else none

/-- `MemWrite(PPOS, 1, v)`: append one nibble (R14, R90); none when index `PPOS` is outside the buffer (R33). -/
def Memory.append (m : Memory) (v : Nibble) : Option Memory :=
  if m.length < capacity then some (m ++ [v]) else none

/-! ### Responses -/

/-- `respond(v)`: end the command with status `OK` and data `v` (R15). -/
def respond (s : State) (v : ResponseData) : Outcome := .next (s.withResponse ⟨.ok, v⟩)

/-- `raise Refuse(code)`: end the command with a refusal status, `DATA = 0` and no state change (R15, R62, R138). The lane has
no exceptions (R132, R142): this is its only one, and nothing is saved and no control moves. -/
def refuse (s : State) (code : Status) : Outcome := .next (s.withResponse ⟨code, 0#85⟩)

/-- The 2-bit code of a status (R137). -/
def Status.code : Status → BitVec 2
  | .ok => 0#2
  | .notReady => 1#2
  | .range => 2#2
  | .illegal => 3#2

/-- A command executes only in a lane whose configuration is legal: the spec defines no behaviour of another, and such a
lane is not built (R28, U7). Log entry 4. -/
def onLane (s : State) (k : Outcome) : Outcome := if s.cfg.legal then k else .refused .illegalConfiguration

/-- The answer to a word that spells no command: `ST = ILLEGAL`, no state change (R65 to R68). -/
def answerIllegal (s : State) : Outcome := onLane s (refuse s .illegal)

end Sys2Proof.Machine
end

