-- ==== Sys2Proof/Machine/Operands.lean ====
section
/-! DEFINITION. Operand forms of the read commands: nibble lists as numbers (R14, R45), the field reader (R107). -/

namespace Sys2Proof.Machine

/-- The value of a nibble list in base `b`, most significant nibble first: `Σ nj · b^(k−1−j)` (R14, R45). -/
def baseValue (b : Nat) (l : List Nibble) : Nat := l.foldl (fun acc n => b * acc + n.toNat) 0

/-- `U(list)`: the base-16 value (R14). -/
def unsignedValue (l : List Nibble) : Nat := baseValue 16 l

/-- `D(list)`: the base-10 value; a nibble above 9 is used as it is (R14, R111). -/
def bcdValue (l : List Nibble) : Nat := baseValue 10 l

/-- The value of a BCD field with its sign (R110). -/
def signedBcd (l : List Nibble) (neg : Bool) : Int := if neg then -(bcdValue l : Int) else (bcdValue l : Int)

/-- A result on the data bus: in the low bits, the rest zero (R62). -/
def toData {n : Nat} (v : BitVec n) : ResponseData := v.setWidth 85

/-- A read of `count` nibbles from `start` (R107): `NOTREADY` without a payload, `RANGE` when the field reaches past `PAYLEN`,
else the result `f` computes from the nibbles. A read that `MemRead` does not define is refused as well (R14; log entry 7). -/
def readField (s : State) (start count : Nat) (f : List Nibble → ResponseData) : Outcome :=
  if s.hasPayload = false then refuse s .notReady
  else if s.cfg.len < start + count then refuse s .range
  else
    match memRead s start count with
    | some nibbles => respond s (f nibbles)
    | none => refuse s .range

end Sys2Proof.Machine
end

