-- ==== Sys2Proof/Syntax.lean ====
section
/-! DEFINITION. The eight commands of the lane (R63), one constructor per row of the opcode table. -/

namespace Sys2Proof

/-- A command with its operands (R61, R63). Operands are unsigned immediates; `level` and `neg` are the source's booleans. -/
inductive Instr where
  /-- `EDGE duration, level`: one timed signal edge (R85). -/
  | edge (duration : Duration) (level : Bool)
  /-- `RST`: reset the runtime state (R97). -/
  | rst
  /-- `CLS duration`: classify a duration (R83). -/
  | cls (duration : Duration)
  /-- `CKSUM`: the calculated checksum (R101). -/
  | cksum
  /-- `DUNS start, count`: base-16 field (R109). -/
  | duns (start : BitVec 5) (count : BitVec 4)
  /-- `DBCD start, count, neg`: base-10 field with sign (R110). -/
  | dbcd (start : BitVec 5) (count : BitVec 4) (neg : Bool)
  /-- `RDNIB index`: one nibble (R108). -/
  | rdnib (start : BitVec 5)
  /-- `DECODE`: the whole reading (R115). -/
  | decode
deriving DecidableEq, Repr

end Sys2Proof
end

