-- ==== Sys2Proof/WellFormed.lean ====
section
/-! DEFINITION. Which commands have a word: the `count` limit of format F (R67). -/

namespace Sys2Proof

/-- `count` values 9 to 15 are reserved (R67). -/
def countOk (count : BitVec 4) : Bool := decide (count.toNat ≤ 8)

/-- A command is well formed when a word spells it: every operand value is admitted but a `count` above 8 (R61, R67). -/
def Instr.wellFormed : Instr → Bool
  | .edge _ _ => true
  | .rst => true
  | .cls _ => true
  | .cksum => true
  | .duns _ count => countOk count
  | .dbcd _ count _ => countOk count
  | .rdnib _ => true
  | .decode => true

end Sys2Proof
end

