-- ==== Sys2Proof/Machine/FieldExtract.lean ====
section
/-! DEFINITION. The field reader commands RDNIB, DUNS and DBCD (43_field_extract.md). -/

namespace Sys2Proof.Machine

/-- The format-F commands admit `count` 0 to 8; a greater count is `ILLEGAL` before any state is looked at (R67, R139). -/
def withCount (s : State) (count : BitVec 4) (k : Outcome) : Outcome :=
  if countOk count then k else refuse s .illegal

/-- `RDNIB index` (R108): the nibble in `DATA[3:0]`. -/
def execRdnib (start : BitVec 5) (s : State) : Outcome :=
  onLane s (readField s start.toNat 1 fun p => toData (BitVec.ofNat 4 (unsignedValue p)))

/-- `DUNS start, count` (R109): the base-16 value in `DATA[31:0]`. -/
def execDuns (start : BitVec 5) (count : BitVec 4) (s : State) : Outcome :=
  onLane s (withCount s count
    (readField s start.toNat count.toNat fun p => toData (BitVec.ofNat 32 (unsignedValue p))))

/-- `DBCD start, count, neg` (R110): the base-10 value, negated when asked, mod 2^32 in `DATA[31:0]`. -/
def execDbcd (start : BitVec 5) (count : BitVec 4) (neg : Bool) (s : State) : Outcome :=
  onLane s (withCount s count
    (readField s start.toNat count.toNat fun p => toData (BitVec.ofInt 32 (signedBcd p neg))))

end Sys2Proof.Machine
end

