-- ==== Sys2Proof/Machine/Checksum.lean ====
section
/-! DEFINITION. Checksum generator and the command CKSUM (42_checksum.md). -/

namespace Sys2Proof.Machine

/-- The sum of the nibbles of a list. -/
def nibbleSum (l : List Nibble) : Nat := (l.map BitVec.toNat).sum

/-- The sum of the bytes made of consecutive pairs, earlier nibble high; an unpaired last nibble is left out (R103). -/
def byteSum : List Nibble → Nat
  | hi :: lo :: rest => (16 * hi.toNat + lo.toNat) + byteSum rest
  | _ => 0

/-- `SUMN(P, L)`: the nibbles of index 0 to `L − 3`, mod 256 (R102). -/
def sumN (p : List Nibble) (len : Nat) : BitVec 8 := BitVec.ofNat 8 (nibbleSum (p.take (len - 2)))

/-- `SUMB(P, L)`: the byte groups below index `L − 2`, mod 256 (R103). -/
def sumB (p : List Nibble) (len : Nat) : BitVec 8 := BitVec.ofNat 8 (byteSum (p.take (len - 2)))

/-- `SUMA(P, L)`: the nibbles of index 1 to `L − 2`, mod 256 (R104). -/
def sumA (p : List Nibble) (len : Nat) : BitVec 8 := BitVec.ofNat 8 (nibbleSum ((p.drop 1).take (len - 2)))

/-- `cksum()`: the algorithm `CKSEL` selects (R101). -/
def checksum (c : LaneConfig) (p : List Nibble) : BitVec 8 :=
  match c.cksel with
  | .suma => sumA p c.len
  | .sumn => sumN p c.len
  | .sumb => sumB p c.len

/-- `CKSUM` (R101). -/
def execCksum (s : State) : Outcome :=
  onLane s (readField s 0 s.cfg.len fun p => toData (checksum s.cfg p))

end Sys2Proof.Machine
end

