-- ==== Sys2Proof/Machine/Flags.lean ====
section
/-! DEFINITION. Flag computations: the status outputs (R41), the synchroniser state (R86), the flag fields of the layouts. -/

namespace Sys2Proof.Machine

/-- The 1-bit code of `PHASE` (R29). -/
def Phase.code : Phase → BitVec 1
  | .ac => 0#1
  | .ash => 1#1

/-- The output `PHASE_O` (R41). -/
def State.phaseO (s : State) : BitVec 1 := s.phase.code

/-- The output `SYNCED_O` (R41). -/
def State.syncedO (s : State) : BitVec 1 := BitVec.ofBool s.synced

/-- The output `READY_O` (R41). -/
def State.readyO (s : State) : BitVec 1 := BitVec.ofBool s.hasPayload

/-- The synchroniser's states over (`SYNCED`, `HASPAYLOAD`) (R17, R86). -/
inductive SyncState where
  | unsynced
  | filling
  | ready
deriving DecidableEq, Repr

/-- The synchroniser state of the two flags; (0, 1) is unreachable and has none (R39). -/
def State.syncState (s : State) : Option SyncState :=
  match s.synced, s.hasPayload with
  | false, false => some .unsynced
  | true, false => some .filling
  | true, true => some .ready
  | false, true => none

/-- The truth of a masked integer: true exactly when it is not zero (R16). -/
def nonzero {n : Nat} (v : BitVec n) : Bool := decide (v ≠ 0#n)

/-- v1 `flags = ((n[1] & 0x3) << 4) | n[5]` (R118). -/
def flagsV1 (n1 n5 : Nibble) : BitVec 6 := ((n1 &&& 0x3#4).setWidth 6 <<< 4) ||| n5.setWidth 6

/-- v1 `battery_low = flags & 0x08` (R118). -/
def batteryLowV1 (flags : BitVec 6) : Bool := nonzero (flags &&& 0x08#6)

/-- v1 temperature sign `flags & 0x2` (R119). -/
def negativeV1 (flags : BitVec 6) : Bool := nonzero (flags &&& 0x2#6)

/-- v2 and v3 `battery_low = flags & 0x04` (R121, R123). -/
def batteryLowV2 (flags : BitVec 6) : Bool := nonzero (flags &&& 0x04#6)

/-- v2 and v3 temperature sign: any non-zero nibble 11 (R121, R127). -/
def negativeV2 (n11 : Nibble) : Bool := nonzero n11

end Sys2Proof.Machine
end

