-- ==== Sys2Proof/Machine/PayloadDecode.lean ====
section
/-! DEFINITION. The payload decoder: the reading record, the three layouts, and the command DECODE (44_payload_decode.md). -/

namespace Sys2Proof.Machine

/-- The sensor reading, with the widths of R116; `celsius` and `humidity` are two's complement. -/
structure Reading where
  channel : BitVec 4
  flags : BitVec 6
  batteryLow : Bool
  celsius : BitVec 16
  humidity : BitVec 16
  rollingCode : BitVec 8
  checksum : BitVec 8
  calculatedChecksum : BitVec 8
  deviceId : BitVec 16
  protocolVersion : BitVec 2
deriving DecidableEq, Repr

/-- `pack(r)`: the reading on `DATA[84:0]`, most significant field first here (R128). -/
def packReading (r : Reading) : ResponseData :=
  r.channel ++ r.flags ++ BitVec.ofBool r.batteryLow ++ r.celsius ++ r.humidity ++ r.rollingCode ++ r.checksum ++
    r.calculatedChecksum ++ r.deviceId ++ r.protocolVersion

/-- `n[i]` of the layout formulas: nibble `i` of the payload. The layouts ask only for indices below `PAYLEN` (R125), where
the default is not used. -/
def nibbleOf (p : List Nibble) (i : Nat) : Nibble := p.getD i 0#4

/-- `celsius`: a BCD field with its sign, 16 bits two's complement (R116, R119, R121). -/
def celsiusOf (digits : List Nibble) (neg : Bool) : BitVec 16 := BitVec.ofInt 16 (signedBcd digits neg)

/-- The embedded checksum: the last two nibbles, earlier nibble high (R105, R117). -/
def embeddedChecksum (c : LaneConfig) (p : List Nibble) : BitVec 8 := nibbleOf p (c.len - 2) ++ nibbleOf p (c.len - 1)

/-- Layout v1 (R118, R119), with the three common fields (R117). -/
def layoutV1 (c : LaneConfig) (p : List Nibble) : Reading :=
  let flags := flagsV1 (nibbleOf p 1) (nibbleOf p 5)
  { channel := nibbleOf p 1 >>> 2
    flags := flags
    batteryLow := batteryLowV1 flags
    celsius := celsiusOf [nibbleOf p 2, nibbleOf p 3, nibbleOf p 4] (negativeV1 flags)
    humidity := 0#16
    rollingCode := (nibbleOf p 0).setWidth 8
    checksum := embeddedChecksum c p
    calculatedChecksum := checksum c p
    deviceId := 0#16
    protocolVersion := c.variant.code }

/-- v2 `channel = bitlen(n[4]) − 1` (R120); for `n[4] = 0` the formula has no unsigned value and the field is the free value
`free` (R126). -/
def channelV2 (n4 free : Nibble) : Nibble := if n4 = 0#4 then free else BitVec.ofNat 4 (bitlen n4.toNat - 1)

/-- `device_id = U(n[0..3]) & 0xFFCF` (R120). -/
def deviceIdOf (p : List Nibble) : BitVec 16 := (nibbleOf p 0 ++ nibbleOf p 1 ++ nibbleOf p 2 ++ nibbleOf p 3) &&& 0xFFCF#16

/-- The fields layouts v2 and v3 share (R121, R123), given their `channel` and `humidity`. -/
def layoutV2V3 (c : LaneConfig) (p : List Nibble) (channel : Nibble) (humidity : BitVec 16) : Reading :=
  let flags := (nibbleOf p 7).setWidth 6
  { channel := channel
    flags := flags
    batteryLow := batteryLowV2 flags
    celsius := celsiusOf [nibbleOf p 8, nibbleOf p 9, nibbleOf p 10] (negativeV2 (nibbleOf p 11))
    humidity := humidity
    rollingCode := nibbleOf p 5 ++ nibbleOf p 6
    checksum := embeddedChecksum c p
    calculatedChecksum := checksum c p
    deviceId := deviceIdOf p
    protocolVersion := c.variant.code }

/-- Layout v2 (R120, R121), with the value `free` for a `channel` the spec leaves unspecified (R126). -/
def layoutV2 (c : LaneConfig) (p : List Nibble) (free : Nibble) : Reading :=
  layoutV2V3 c p (channelV2 (nibbleOf p 4) free) 0#16

/-- v3 `humidity = 10 · D(MemRead(12, HUMPL))` (R124). -/
def humidityV3 (c : LaneConfig) (p : List Nibble) : BitVec 16 :=
  BitVec.ofNat 16 (10 * bcdValue ((p.drop 12).take c.humpl.places))

/-- Layout v3 (R122 to R124). -/
def layoutV3 (c : LaneConfig) (p : List Nibble) : Reading := layoutV2V3 c p (nibbleOf p 4) (humidityV3 c p)

/-- The reading of a payload by the layout `VARIANT` selects (R115). -/
def readingOf (c : LaneConfig) (p : List Nibble) (free : Nibble) : Reading :=
  match c.variant with
  | .v1 => layoutV1 c p
  | .v2 => layoutV2 c p free
  | .v3 => layoutV3 c p

/-- `need(VARIANT)`: the smallest `PAYLEN` at which every index the layout reads exists (R125). -/
def need (c : LaneConfig) : Nat :=
  match c.variant with
  | .v1 => 6
  | .v2 => 12
  | .v3 => 12 + c.humpl.places

/-- `DECODE` (R115): `NOTREADY`, then `RANGE` when the payload is too short for the layout (R125), else the packed reading.
The free value is the one of this capture's draw (R126). -/
def execDecode (s : State) : Outcome :=
  onLane s <|
    if s.hasPayload = false then refuse s .notReady
    else if s.cfg.len < need s.cfg then refuse s .range
    else readField s 0 s.cfg.len fun p => packReading (readingOf s.cfg p (Config.freeChannel s.draw p))

end Sys2Proof.Machine
end

