-- ==== Sys2Proof/Machine/Classifier.lean ====
section
/-! DEFINITION. Pulse classifier, two-phase bit recoverer, and the command CLS (40_classifier.md). -/

namespace Sys2Proof.Machine

/-- The classes of a pulse (R75). -/
inductive PulseClass where
  | invalid
  | half
  | full
deriving DecidableEq, Repr

/-- The number `CLS` answers for a class (R83). -/
def PulseClass.code : PulseClass → BitVec 2
  | .invalid => 0#2
  | .half => 1#2
  | .full => 2#2

/-- `classify(d)`: two strict tolerance bands, on unbounded integers, `Half` tested first (R75, R76). -/
def classify (c : LaneConfig) (d : Duration) : PulseClass :=
  if 2 * absDiff d.toNat c.half < c.half then .half
  else if 4 * absDiff d.toNat c.full.toNat < c.full.toNat then .full
  else .invalid

/-- `recoverBit(d, l)`: the next `PHASE` and the recovered bit `1 − level`, if any (R79 to R81). -/
def recoverBit (c : LaneConfig) (p : Phase) (d : Duration) (level : Bool) : Phase × Option Bool :=
  match p, classify c d with
  | .ac, .invalid => (.ac, none)
  | .ac, .half => (.ash, some (!level))
  | .ac, .full => (.ash, some (!level))
  | .ash, .invalid => (.ac, none)
  | .ash, .half => (.ac, none)
  | .ash, .full => (.ash, some (!level))

/-- `CLS duration` (R83): accepted in every state, writes none. -/
def execCls (duration : Duration) (s : State) : Outcome :=
  onLane s (respond s (toData (classify s.cfg duration).code))

end Sys2Proof.Machine
end

