-- ==== Sys2Proof/Machine/Synchronizer.lean ====
section
/-! DEFINITION. Bit synchroniser, nibble assembler, compaction, and the commands EDGE and RST (41_synchronizer.md). -/

namespace Sys2Proof.Machine

/-- `((SR << 1) | b) & mask(SYNCLEN)`: the new bit at bit 0, the oldest falls off the top (R46, R87). -/
def shiftIn (synclen : Nat) (sr : BitVec 64) (b : Bool) : BitVec 64 :=
  ((sr <<< 1) ||| (BitVec.ofBool b).setWidth 64) &&& mask64 synclen

/-- The Unsynced step (R87): shift the bit in; when the window equals `SYNCPAT`, the sync match (R88, R89). -/
def unsyncedStep (b : Bool) (s : State) : State :=
  let s' := s.withSr (shiftIn s.cfg.synclen s.sr b)
  if s'.sr = s.cfg.syncpat then s'.startFill else s'

/-- The logical nibble of a raw byte `x`: bit `k` is `x[CTAP[k]]` (R92). -/
def pickBits (t : Taps) (x : BitVec 8) : Nibble :=
  BitVec.ofBool (x.getLsbD t.tap3.toNat) ++ BitVec.ofBool (x.getLsbD t.tap2.toNat) ++
    BitVec.ofBool (x.getLsbD t.tap1.toNat) ++ BitVec.ofBool (x.getLsbD t.tap0.toNat)

/-- `compact()`: each pair of raw nibbles, read as the byte `16 · first + second` (R47), becomes one logical nibble (R92). -/
def compact (t : Taps) : List Nibble → List Nibble
  | first :: second :: rest => pickBits t (first ++ second) :: compact t rest
  | _ => []

/-- The completion check after an append (R91): at the fill target, compact in a double-rate lane and set `HASPAYLOAD`. -/
def completionCheck (s : State) : State :=
  if s.ppos = s.cfg.fillTarget then
    (if s.cfg.dbl then s.withPbuf (compact s.cfg.ctap s.pbuf) else s).markReady
  else s

/-- `NIB | (b << NIBPOS)`: the next bit of the nibble, least significant first (R44, R90). -/
def assemble (nib : BitVec 4) (nibpos : BitVec 2) (b : Bool) : Nibble :=
  nib ||| ((BitVec.ofBool b).setWidth 4 <<< nibpos.toNat)

/-- The Filling step (R90): assemble the bit; on the fourth, append the nibble and check for completion. None when the
append lies outside the buffer. -/
def fillingStep (b : Bool) (s : State) : Option State :=
  let nib := assemble s.nib s.nibpos b
  if s.nibpos.toNat < 3 then some (s.withNibble nib (s.nibpos + 1#2))
  else
    match Memory.append s.pbuf nib with
    | some m => some (completionCheck ((s.withPbuf m).withNibble 0#4 0#2))
    | none => none

/-- What a recovered bit does (R85): nothing when the payload is ready (R93), else the Unsynced or the Filling step. -/
def ingestBit (b : Bool) (s : State) : Option State :=
  if s.hasPayload then some s
  else if s.synced then fillingStep b s
  else some (unsyncedStep b s)

/-- The data of an `EDGE` response: `DATA[1] = BITV`, `DATA[0] = BIT` (R69, R94). -/
def edgeData : Option Bool → ResponseData
  | none => 0#85
  | some b => toData (BitVec.ofBool true ++ BitVec.ofBool b)

/-- `EDGE duration, level` (R85): recover a bit, which writes `PHASE`; a rejected edge changes nothing else; a recovered bit
is ingested. Accepted in every state. -/
def execEdge (duration : Duration) (level : Bool) (s : State) : Outcome :=
  onLane s <|
    let r := recoverBit s.cfg s.phase duration level
    let s' := s.withPhase r.1
    match r.2 with
    | none => respond s' (edgeData none)
    | some b =>
      match ingestBit b s' with
      | some t => respond t (edgeData (some b))
      | none => .fault .outsideBuffer

/-- `RST` (R97): all eight runtime fields to their reset values, configuration untouched. -/
def execRst (s : State) : Outcome := onLane s (respond s.clearRuntime 0#85)

end Sys2Proof.Machine
end

