-- ==== Sys2Proof/Machine/Dispatch.lean ====
section
/-! DEFINITION. The meaning of each command, one arm per constructor (R63). -/

namespace Sys2Proof.Machine

def exec (i : Instr) (s : State) : Host.Outcome State Fault Refusal :=
  match i with
  | .edge duration level => Sys2Proof.Machine.execEdge duration level s
  | .rst => Sys2Proof.Machine.execRst s
  | .cls duration => Sys2Proof.Machine.execCls duration s
  | .cksum => Sys2Proof.Machine.execCksum s
  | .duns start count => Sys2Proof.Machine.execDuns start count s
  | .dbcd start count neg => Sys2Proof.Machine.execDbcd start count neg s
  | .rdnib start => Sys2Proof.Machine.execRdnib start s
  | .decode => Sys2Proof.Machine.execDecode s

end Sys2Proof.Machine
end

