-- ==== Sys2Proof/Decode.lean ====
section
/-! DEFINITION. Decoding and encoding of command words (R59 to R68), and the opcode table (R63). -/

namespace Sys2Proof

/-- Why a word spells no command. Each is answered with `ILLEGAL` by the machine (R68); none stops it. -/
inductive DecodeError where
  /-- The opcode is `0x0` or `0x9` to `0xF` (R65). -/
  | reservedOpcode
  /-- A field shown as `0` in the format is not zero (R66). -/
  | reservedField
  /-- Format F with `count` 9 to 15 (R67). -/
  | reservedCount
deriving DecidableEq, Repr

/-- The field of `len` bits of `w` from bit `lo` up: `w[lo+len−1 : lo]` (R12). -/
def wordField (w : CommandWord) (lo len : Nat) : BitVec len := w.extractLsb' lo len

/-- The operand `duration = W[31:0]` (R61). -/
def durationOf (w : CommandWord) : Duration := wordField w 0 32

/-- The operand `level = W[32]` (R61). -/
def levelOf (w : CommandWord) : Bool := w.getLsbD 32

/-- The operand `start = W[4:0]` (R61). -/
def startOf (w : CommandWord) : BitVec 5 := wordField w 0 5

/-- The operand `count = W[8:5]` (R61). -/
def countOf (w : CommandWord) : BitVec 4 := wordField w 5 4

/-- The operand `neg = W[9]` (R61). -/
def negOf (w : CommandWord) : Bool := w.getLsbD 9

/-- `i` when the reserved field `zero` holds zero, else the word is illegal (R66). -/
def requireZero {n : Nat} (zero : BitVec n) (i : Except DecodeError Instr) : Except DecodeError Instr :=
  if zero = 0#n then i else .error .reservedField

/-- `i` when `count ≤ 8`, else the word is illegal (R67). -/
def requireCount (count : BitVec 4) (i : Except DecodeError Instr) : Except DecodeError Instr :=
  if countOk count then i else .error .reservedCount

/-- The command a word spells, by the procedure of R68: the opcode `W[39:36]`, then the zero fields of its format (R60),
then the `count` limit, then the operands (R61). -/
def decode (w : CommandWord) : Except DecodeError Instr :=
  match (wordField w 36 4).toNat with
  | 1 => requireZero (wordField w 33 3) (.ok (.edge (durationOf w) (levelOf w)))
  | 2 => requireZero (wordField w 0 36) (.ok .rst)
  | 3 => requireZero (wordField w 32 4) (.ok (.cls (durationOf w)))
  | 4 => requireZero (wordField w 0 36) (.ok .cksum)
  | 5 => requireZero (wordField w 9 27) (requireCount (countOf w) (.ok (.duns (startOf w) (countOf w))))
  | 6 => requireZero (wordField w 10 26) (requireCount (countOf w) (.ok (.dbcd (startOf w) (countOf w) (negOf w))))
  | 7 => requireZero (wordField w 5 31) (.ok (.rdnib (startOf w)))
  | 8 => requireZero (wordField w 0 36) (.ok .decode)
  | _ => .error .reservedOpcode

/-- The word of a command, by the patterns of R64 (most significant field first). For a well-formed command it is the one
word that decodes to it. -/
def encode : Instr → CommandWord
  | .edge duration level => 1#4 ++ 0#3 ++ BitVec.ofBool level ++ duration
  | .rst => 2#4 ++ 0#36
  | .cls duration => 3#4 ++ 0#4 ++ duration
  | .cksum => 4#4 ++ 0#36
  | .duns start count => 5#4 ++ 0#27 ++ count ++ start
  | .dbcd start count neg => 6#4 ++ 0#26 ++ BitVec.ofBool neg ++ count ++ start
  | .rdnib start => 7#4 ++ 0#31 ++ start
  | .decode => 8#4 ++ 0#36

/-- A row of the opcode table: a word spells the command when `W & mask = pattern` and, for format F, `count ≤ 8` (R63). -/
structure OpcodeRow where
  mnemonic : String
  pattern : CommandWord
  mask : CommandWord
  formatF : Bool
deriving DecidableEq, Repr

/-- The opcode map of R63. -/
def opcodeTable : List OpcodeRow :=
  [ ⟨"EDGE",   0x1000000000#40, 0xFE00000000#40, false⟩,
    ⟨"RST",    0x2000000000#40, 0xFFFFFFFFFF#40, false⟩,
    ⟨"CLS",    0x3000000000#40, 0xFF00000000#40, false⟩,
    ⟨"CKSUM",  0x4000000000#40, 0xFFFFFFFFFF#40, false⟩,
    ⟨"DUNS",   0x5000000000#40, 0xFFFFFFFE00#40, true⟩,
    ⟨"DBCD",   0x6000000000#40, 0xFFFFFFFC00#40, true⟩,
    ⟨"RDNIB",  0x7000000000#40, 0xFFFFFFFFE0#40, false⟩,
    ⟨"DECODE", 0x8000000000#40, 0xFFFFFFFFFF#40, false⟩ ]

/-- Whether the word passes the row's match, mask and `count` test (R63). -/
def OpcodeRow.accepts (r : OpcodeRow) (w : CommandWord) : Bool :=
  decide (w &&& r.mask = r.pattern) && (!r.formatF || countOk (countOf w))

/-- The mnemonic of a command (R63). -/
def Instr.mnemonic : Instr → String
  | .edge _ _ => "EDGE"
  | .rst => "RST"
  | .cls _ => "CLS"
  | .cksum => "CKSUM"
  | .duns _ _ => "DUNS"
  | .dbcd _ _ _ => "DBCD"
  | .rdnib _ => "RDNIB"
  | .decode => "DECODE"

/-- The bits `w` of an instruction, numbered as the opcode table numbers them, as a command word. A command word is a
single parallel word with no byte order (R48, R59), so the numbering is the word's own; bits at `nbits` and above are 0. -/
def tableWord (nbits w : Nat) : CommandWord := BitVec.ofNat 40 (w % 2 ^ nbits)

/-- The instruction the decoder reads from the instruction bits `w` (`none` for an illegal word). -/
def decodeTableWord (nbits w : Nat) : Option Instr :=
  match decode (tableWord nbits w) with
  | .ok i => some i
  | .error _ => none

end Sys2Proof
end

