-- ==== Sys2Proof/Machine/Port.lean ====
section
/-! DEFINITION. Taking the next command word from the command port (R59), and putting one there. -/

namespace Sys2Proof.Machine

/-- What the host presents at the command port. -/
inductive Presented where
  /-- No word: the lane does nothing (R152). -/
  | nothing
  /-- A word that spells a command, and the state with the word taken from the port. -/
  | command (i : Instr) (s : State)
  /-- A word that spells none, and the state with the word taken from the port (R68). -/
  | illegal (e : DecodeError) (s : State)
deriving DecidableEq, Repr

/-- Take the oldest word from the command port and decode it (R59, R68). -/
def takeWord (s : State) : Presented :=
  match s.port with
  | [] => .nothing
  | w :: rest =>
    match decode w with
    | .ok i => .command i (s.withPort rest)
    | .error e => .illegal e (s.withPort rest)

/-- The host presents the word `w` first, before the words already waiting. -/
def State.present (s : State) (w : CommandWord) : State := s.withPort (w :: s.port)

end Sys2Proof.Machine
end

