-- ==== Sys2Proof/Machine/Step.lean ====
section
/-! DEFINITION. One step of the lane: one command, atomically (R52, R59). -/

namespace Sys2Proof.Machine

/-- One step: the command of the word presented, `ILLEGAL` for a word that spells none (R68), and nothing at all while no word
is presented (R152). -/
def step (s : State) : Host.Outcome State Fault Refusal :=
  match takeWord s with
  | .nothing => .next s
  | .command i t => exec i t
  | .illegal _ t => answerIllegal t

/-- The state in which the host presents the instruction with bits `w` next. -/
def State.withFetchWord (s : State) (nbits w : Nat) : State := s.present (tableWord nbits w)

end Sys2Proof.Machine
end

