-- ==== Sys2Proof/Machine/Assembler.lean ====
section
/-! DEFINITION. Assembler text of a command (R70) and the pseudo-instructions (R71). -/

namespace Sys2Proof.Machine

/-- A boolean operand as a number. -/
def bitText (b : Bool) : String := if b then "1" else "0"

/-- The assembler line of a command: mnemonic, then decimal operands in signature order (R70). -/
def assemblerLine (i : Instr) : String :=
  match i with
  | .edge duration level => i.mnemonic ++ " " ++ toString duration.toNat ++ ", " ++ bitText level
  | .rst => i.mnemonic
  | .cls duration => i.mnemonic ++ " " ++ toString duration.toNat
  | .cksum => i.mnemonic
  | .duns start count => i.mnemonic ++ " " ++ toString start.toNat ++ ", " ++ toString count.toNat
  | .dbcd start count neg =>
    i.mnemonic ++ " " ++ toString start.toNat ++ ", " ++ toString count.toNat ++ ", " ++ bitText neg
  | .rdnib start => i.mnemonic ++ " " ++ toString start.toNat
  | .decode => i.mnemonic

/-- `HP level`: a nominal half-bit pulse, `EDGE HALF, level` (R71). -/
def halfPulse (c : LaneConfig) (level : Bool) : Instr := .edge (BitVec.ofNat 32 c.half) level

/-- `FP level`: a nominal full-bit pulse, `EDGE FULL, level` (R71). -/
def fullPulse (c : LaneConfig) (level : Bool) : Instr := .edge c.full level

/-- `BAD level`: a pulse invalid under every configuration, `EDGE 0, level` (R71). -/
def badPulse (level : Bool) : Instr := .edge 0#32 level

/-- `EMBCK`: the embedded checksum, `DUNS (PAYLEN − 2), 2` (R71, R105). -/
def readEmbedded (c : LaneConfig) : Instr := .duns (c.paylen - 2#5) 2#4

end Sys2Proof.Machine
end

