-- ==== Sys2Proof/Machine/System.lean ====
section
/-! DEFINITION. Several lanes (R58, R146): a tuple of lane states; a step of the system is a step of one lane. -/

namespace Sys2Proof.Machine

/-- The state of a system of `n` lanes: the tuple of the lanes' states (R146). -/
abbrev System (n : Nat) := Vector State n

/-- A step of lane `k` of the system. The other lanes do not move (R146). -/
def System.stepLane {n : Nat} (sys : System n) (k : Fin n) : Host.Outcome (System n) Fault Refusal :=
  match step sys[k] with
  | .next t => .next (sys.set k t)
  | .fault r => .fault r
  | .refused r => .refused r

/-- The host presents one word to every lane, as it does with an edge (R146: the core has no broadcast port). -/
def System.giveAll {n : Nat} (sys : System n) (w : CommandWord) : System n := sys.map fun s => s.give w

end Sys2Proof.Machine
end

