-- ==== Sys2Proof/Safety.lean ====
section
/-! DEFINITION. The invariants of a legal lane (R39) and what a safe run is, in the terms statements use. -/

namespace Sys2Proof.Machine

/-- The invariants that hold after reset and after every command, for a legal configuration (R28, R39). -/
structure Inv (s : State) : Prop where
  /-- The configuration is legal (R28). -/
  legal : s.cfg.legal = true
  /-- A fill in progress has not reached its target (R39 item 2, R91). -/
  filling_below : s.hasPayload = false → s.ppos < s.cfg.fillTarget
  /-- A ready payload has exactly `PAYLEN` nibbles (R39 item 2). -/
  ready_len : s.hasPayload = true → s.ppos = s.cfg.len
  /-- `HASPAYLOAD = 1` implies `SYNCED = 1` (R39 item 4). -/
  ready_synced : s.hasPayload = true → s.synced = true
  /-- `SYNCED = 0` implies an empty buffer and cleared cursors (R39 item 5). -/
  unsynced_empty : s.synced = false → s.pbuf = [] ∧ s.nib = 0#4 ∧ s.nibpos = 0#2
  /-- `SR < 2^SYNCLEN` (R39 item 6). -/
  sr_window : s.sr.toNat < 2 ^ s.cfg.synclen
  /-- `NIB < 2^NIBPOS` (R39 item 6). -/
  nib_window : s.nib.toNat < 2 ^ s.nibpos.toNat
  /-- `HASPAYLOAD = 1` implies `NIBPOS = 0` and `NIB = 0` (R39 item 7). -/
  ready_nib : s.hasPayload = true → s.nibpos = 0#2 ∧ s.nib = 0#4
  /-- `SR` equals `SYNCPAT` exactly while synced: it keeps the matched value (R89), and the matcher fires as soon as it does (R88). -/
  synced_sr : s.synced = true ↔ s.sr = s.cfg.syncpat

/-- The command changed nothing of the lane but its response (R52, R138). -/
def OnlyResponse (s t : State) : Prop := t = s.withResponse t.resp

/-- The five read commands (R42, R107). -/
def isReadCommand : Instr → Bool
  | .edge _ _ => false
  | .rst => false
  | .cls _ => false
  | .cksum => true
  | .duns _ _ => true
  | .dbcd _ _ _ => true
  | .rdnib _ => true
  | .decode => true

/-- An edge of duration `d` yields a bit in state `s`: its pulse is valid, and it is not a `Half` in AwaitingSecondHalf (R80). -/
abbrev YieldsBit (s : State) (d : Duration) : Prop :=
  classify s.cfg d ≠ .invalid ∧ (s.phase = .ac ∨ classify s.cfg d = .full)

/-- The window a recovered bit makes of `SR`: `((SR << 1) | b) mod 2^SYNCLEN`, as a number (R87). -/
def nextWindow (s : State) (b : Bool) : Nat := (2 * s.sr.toNat + b.toNat) % 2 ^ s.cfg.synclen

/-- The bit a command recovers, if it is an edge that yields one (R79). -/
def recoveredBit (s : State) : Instr → Option Bool
  | .edge d level => (recoverBit s.cfg s.phase d level).2
  | .rst => none
  | .cls _ => none
  | .cksum => none
  | .duns _ _ => none
  | .dbcd _ _ _ => none
  | .rdnib _ => none
  | .decode => none

/-- Recovered bits ingested one after the other (R85, R86). -/
def ingestBits : List Bool → State → Option State
  | [], s => some s
  | b :: rest, s => (ingestBit b s).bind (ingestBits rest)

/-- Nibble `i` of the payload buffer as a number, as the layout formulas write `n[i]`. -/
def nibbleNum (s : State) (i : Nat) : Nat := (s.pbuf.getD i 0#4).toNat

/-- The field of `len` bits of the response data from bit `lo` up. -/
def dataField (s : State) (lo len : Nat) : BitVec len := s.resp.data.extractLsb' lo len

/-- `k` steps of the lane, ending at the first stop. -/
def runFor : Nat → State → Outcome
  | 0, s => .next s
  | k + 1, s =>
    match step s with
    | .next t => runFor k t
    | .fault r => .fault r
    | .refused r => .refused r

/-- A run of the lane that stopped nowhere: `k` steps that all answer a next state. -/
def SafeRun (k : Nat) (s : State) : Prop := ∃ t, runFor k s = .next t

end Sys2Proof.Machine
end

