-- ==== Sys2Proof/Certificates/Slice0/Obligations.lean ====
section
/-! DEFINITION. The statements about the lane, each a `Prop`; none is proved here. -/

open Sys2Proof Sys2Proof.Machine

/-! ### The step and the command words -/

/-- When the word presented decodes to a command, the step is that command's meaning, on the state with the word taken from the
port. -/
def Obligations.StepRunsDecodedCommand : Prop :=
  ∀ (s : State) (w : CommandWord) (rest : List CommandWord) (i : Instr),
    s.port = w :: rest → decode w = .ok i → step s = exec i { s with port := rest }

/-- While no word is presented the lane does nothing. -/
def Obligations.StepIdlesWithoutWord : Prop :=
  ∀ s : State, s.port = [] → step s = .next s

/-- R65: a word with opcode 0 or 9 to 15 is answered `ILLEGAL` with `DATA = 0` and no state change. -/
def Obligations.ReservedOpcodeAnswersIllegal : Prop :=
  ∀ (s : State) (w : CommandWord) (rest : List CommandWord), s.cfg.legal = true → s.port = w :: rest →
    (w.toNat / 2 ^ 36 = 0 ∨ 9 ≤ w.toNat / 2 ^ 36) →
    step s = .next { s with port := rest, resp := ⟨.illegal, 0#85⟩ }

/-- R66: a word with a defined opcode that fails its row's match (a reserved field is not zero, `neg = 1` in `DUNS` included)
is answered `ILLEGAL` with `DATA = 0` and no state change. -/
def Obligations.NonzeroReservedFieldAnswersIllegal : Prop :=
  ∀ (s : State) (w : CommandWord) (rest : List CommandWord) (r : OpcodeRow), s.cfg.legal = true → s.port = w :: rest →
    r ∈ opcodeTable → w.toNat / 2 ^ 36 = r.pattern.toNat / 2 ^ 36 → w &&& r.mask ≠ r.pattern →
    step s = .next { s with port := rest, resp := ⟨.illegal, 0#85⟩ }

/-- R67: a format F word (opcode 5 or 6) with `count` 9 to 15 is answered `ILLEGAL` with `DATA = 0` and no state change. -/
def Obligations.ReservedCountAnswersIllegal : Prop :=
  ∀ (s : State) (w : CommandWord) (rest : List CommandWord), s.cfg.legal = true → s.port = w :: rest →
    (w.toNat / 2 ^ 36 = 5 ∨ w.toNat / 2 ^ 36 = 6) → 9 ≤ w.toNat / 2 ^ 5 % 16 →
    step s = .next { s with port := rest, resp := ⟨.illegal, 0#85⟩ }

/-- Every well-formed command decodes from its word, with every operand at every value the encoding admits. -/
def Obligations.DecodeEncodeRoundTrip : Prop :=
  ∀ i : Instr, i.wellFormed = true → decode (encode i) = .ok i

/-- A word that decodes is the one word of the command it decodes to, and that command is well formed. -/
def Obligations.DecodedWordIsEncoding : Prop :=
  ∀ (w : CommandWord) (i : Instr), decode w = .ok i → i.wellFormed = true ∧ encode i = w

/-- A word decodes exactly when a row of the opcode table accepts it, and then exactly the row of its mnemonic does. -/
def Obligations.DecodeAgreesWithOpcodeTable : Prop :=
  ∀ w : CommandWord,
    ((∃ i, decode w = .ok i) ↔ ∃ r ∈ opcodeTable, r.accepts w = true) ∧
    (∀ i, decode w = .ok i → ∀ r ∈ opcodeTable, (r.accepts w = true ↔ r.mnemonic = i.mnemonic))

/-- The example words of R64 decode to the commands they stand for. -/
def Obligations.ExampleWordsDecode : Prop :=
  decode 0x11000001E8#40 = .ok (.edge 488#32 true) ∧ decode 0x10000003D0#40 = .ok (.edge 976#32 false) ∧
  decode 0x2000000000#40 = .ok .rst ∧ decode 0x3000000B6B#40 = .ok (.cls 2923#32) ∧
  decode 0x4000000000#40 = .ok .cksum ∧ decode 0x500000004C#40 = .ok (.duns 12#5 2#4) ∧
  decode 0x6000000268#40 = .ok (.dbcd 8#5 3#4 true) ∧ decode 0x7000000004#40 = .ok (.rdnib 4#5) ∧
  decode 0x8000000000#40 = .ok .decode

/-! ### The classifier and CLS -/

/-- R75: `CLS` answers 1 when `2·|d − HALF| < HALF`, else 2 when `4·|d − FULL| < FULL`, else 0, on integers, and changes no
state. -/
def Obligations.ClsAnswersTheBand : Prop :=
  ∀ (s : State) (d : Duration), s.cfg.legal = true →
    exec (.cls d) s = .next { s with resp := ⟨.ok,
      if 2 * |(d.toNat : ℤ) - (s.cfg.full.toNat / 2 : ℕ)| < (s.cfg.full.toNat / 2 : ℕ) then 1#85
      else if 4 * |(d.toNat : ℤ) - s.cfg.full.toNat| < s.cfg.full.toNat then 2#85 else 0#85⟩ }

/-- R76: the distances stay below 2^32, and the classes are the open intervals `HALF/2 < d < 3·HALF/2` and
`3·FULL/4 < d < 5·FULL/4` over the rationals. -/
def Obligations.ClassifyIsOpenIntervals : Prop :=
  ∀ (c : LaneConfig) (d : Duration),
    |(d.toNat : ℤ) - c.half| < 2 ^ 32 ∧ |(d.toNat : ℤ) - c.full.toNat| < 2 ^ 32 ∧
    (classify c d = .half ↔ (c.half : ℚ) / 2 < d.toNat ∧ (d.toNat : ℚ) < 3 * c.half / 2) ∧
    (classify c d = .full ↔ 3 * (c.full.toNat : ℚ) / 4 < d.toNat ∧ (d.toNat : ℚ) < 5 * c.full.toNat / 4)

/-- R78: the corner cases of `classify`. -/
def Obligations.ClassifyCornerCases : Prop :=
  ∀ c : LaneConfig,
    classify c 0#32 = .invalid ∧
    (1 ≤ c.half → classify c (BitVec.ofNat 32 c.half) = .half) ∧
    (1 ≤ c.full.toNat → classify c c.full = .full) ∧
    (c.full = 0#32 → ∀ d, classify c d = .invalid) ∧
    (c.full = 1#32 → ∀ d, classify c d = if d = 1#32 then .full else .invalid) ∧
    (∀ d : Duration, 5 * c.full.toNat ≤ 4 * d.toNat → classify c d = .invalid)

/-- The pseudo-code of R79: the `Invalid` test first, then `PHASE`, then the class. -/
def Obligations.RecoverBitFollowsPseudocode : Prop :=
  ∀ (c : LaneConfig) (p : Phase) (d : Duration) (level : Bool),
    recoverBit c p d level =
      if classify c d = .invalid then (.ac, none)
      else if p = .ac then (.ash, some (!level))
      else if classify c d = .half then (.ac, none)
      else (.ash, some (!level))

/-! ### EDGE -/

/-- R133: a rejected edge (class `Invalid`, or `Half` in AwaitingSecondHalf) puts `PHASE` to AwaitingClock, answers `OK` with
`BITV = 0`, and changes nothing else. -/
def Obligations.RejectedEdgeChangesPhaseOnly : Prop :=
  ∀ (s : State) (d : Duration) (level : Bool), s.cfg.legal = true →
    (classify s.cfg d = .invalid ∨ (s.phase = .ash ∧ classify s.cfg d = .half)) →
    exec (.edge d level) s = .next { s with phase := .ac, resp := ⟨.ok, 0#85⟩ }

/-- R87: the Unsynced step. The bit `1 − level` is shifted in at bit 0 and the register masked to `SYNCLEN` bits; when the
window equals `SYNCPAT` the fill starts with an empty buffer and cleared cursors. -/
def Obligations.UnsyncedEdgeShiftsAndMatches : Prop :=
  ∀ (s : State) (d : Duration) (level : Bool), s.cfg.legal = true → YieldsBit s d → s.hasPayload = false → s.synced = false →
    exec (.edge d level) s = .next
      (if nextWindow s (!level) = s.cfg.syncpat.toNat then
        { s with phase := .ash, sr := s.cfg.syncpat, synced := true, pbuf := [], nib := 0#4, nibpos := 0#2,
                 resp := ⟨.ok, BitVec.ofNat 85 (2 + (!level).toNat)⟩ }
      else
        { s with phase := .ash, sr := BitVec.ofNat 64 (nextWindow s (!level)),
                 resp := ⟨.ok, BitVec.ofNat 85 (2 + (!level).toNat)⟩ })

/-- The first three bits of a nibble: the bit `1 − level` enters `NIB` at position `NIBPOS`, and `NIBPOS` advances. -/
def Obligations.FillingEdgeAssemblesBit : Prop :=
  ∀ (s : State) (d : Duration) (level : Bool), s.cfg.legal = true → YieldsBit s d → s.hasPayload = false → s.synced = true →
    s.nibpos.toNat < 3 → s.nib.toNat < 2 ^ s.nibpos.toNat →
    exec (.edge d level) s = .next
      { s with phase := .ash, nib := BitVec.ofNat 4 (s.nib.toNat + (!level).toNat * 2 ^ s.nibpos.toNat),
               nibpos := s.nibpos + 1#2, resp := ⟨.ok, BitVec.ofNat 85 (2 + (!level).toNat)⟩ }

/-- The fourth bit of a nibble, when the fill is not complete with it: the nibble is appended at `PPOS` and the nibble cursor
cleared. -/
def Obligations.FillingEdgeAppendsNibble : Prop :=
  ∀ (s : State) (d : Duration) (level : Bool), s.cfg.legal = true → YieldsBit s d → s.hasPayload = false → s.synced = true →
    s.nibpos = 3#2 → s.nib.toNat < 8 → s.ppos < 28 → s.ppos + 1 ≠ s.cfg.fillTarget →
    exec (.edge d level) s = .next
      { s with phase := .ash, pbuf := s.pbuf ++ [BitVec.ofNat 4 (s.nib.toNat + 8 * (!level).toNat)], nib := 0#4, nibpos := 0#2,
               resp := ⟨.ok, BitVec.ofNat 85 (2 + (!level).toNat)⟩ }

/-- The bit that completes a single-rate fill: the last nibble is appended and `HASPAYLOAD` set in the same command. The draw
counter of the free value moves with it (the model's own, log entry 8). -/
def Obligations.SingleRateFillCompletes : Prop :=
  ∀ (s : State) (d : Duration) (level : Bool), s.cfg.legal = true → YieldsBit s d → s.hasPayload = false → s.synced = true →
    s.nibpos = 3#2 → s.nib.toNat < 8 → s.cfg.dbl = false → s.ppos + 1 = s.cfg.len →
    exec (.edge d level) s = .next
      { s with phase := .ash, pbuf := s.pbuf ++ [BitVec.ofNat 4 (s.nib.toNat + 8 * (!level).toNat)], nib := 0#4, nibpos := 0#2,
               hasPayload := true, resp := ⟨.ok, BitVec.ofNat 85 (2 + (!level).toNat)⟩, draw := s.draw + 1 }

/-- The bit that completes a double-rate fill: the last raw nibble is appended and the raw nibbles compacted in the same
command. Logical nibble `i` has as bit `k` the bit `CTAP[k]` of the byte `16·raw[2i] + raw[2i+1]`. The draw counter of the free
value moves with it (the model's own, log entry 8). -/
def Obligations.DoubleRateFillCompacts : Prop :=
  ∀ (s : State) (d : Duration) (level : Bool), s.cfg.legal = true → YieldsBit s d → s.hasPayload = false → s.synced = true →
    s.nibpos = 3#2 → s.nib.toNat < 8 → s.cfg.dbl = true → s.ppos + 1 = 2 * s.cfg.len →
    ∃ m : Memory,
      exec (.edge d level) s = .next
        { s with phase := .ash, pbuf := m, nib := 0#4, nibpos := 0#2,
                 hasPayload := true, resp := ⟨.ok, BitVec.ofNat 85 (2 + (!level).toNat)⟩, draw := s.draw + 1 } ∧
      m.length = s.cfg.len ∧
      ∀ i < s.cfg.len,
        let raw := s.pbuf ++ [BitVec.ofNat 4 (s.nib.toNat + 8 * (!level).toNat)]
        let x := 16 * (raw.getD (2 * i) 0#4).toNat + (raw.getD (2 * i + 1) 0#4).toNat
        (m.getD i 0#4).toNat = (x.testBit s.cfg.ctap.tap0.toNat).toNat + 2 * (x.testBit s.cfg.ctap.tap1.toNat).toNat +
          4 * (x.testBit s.cfg.ctap.tap2.toNat).toNat + 8 * (x.testBit s.cfg.ctap.tap3.toNat).toNat

/-- With the reference taps compaction keeps the second raw nibble of each pair, whatever the first holds. -/
def Obligations.ReferenceTapsKeepSecondNibble : Prop :=
  ∀ (raw : List Nibble) (n : Nat), raw.length = 2 * n →
    (compact referenceTaps raw).length = n ∧ ∀ i < n, (compact referenceTaps raw)[i]? = raw[2 * i + 1]?

/-- R93: while the payload is ready an edge still runs the bit recoverer, whose phase and bit are seen, and changes nothing
else. -/
def Obligations.ReadyEdgeMovesPhaseOnly : Prop :=
  ∀ (s : State) (d : Duration) (level : Bool), s.cfg.legal = true → s.hasPayload = true →
    exec (.edge d level) s = .next
      { s with phase := (recoverBit s.cfg s.phase d level).1,
               resp := ⟨.ok, if YieldsBit s d then BitVec.ofNat 85 (2 + (!level).toNat) else 0#85⟩ }

/-- R94: in every state that keeps the invariants an edge ends with `ST = OK`, `BITV = 0, BIT = 0` when no bit was recovered and
`BITV = 1, BIT = 1 − level` when one was. -/
def Obligations.EdgeAlwaysAnswersOk : Prop :=
  ∀ (s : State) (d : Duration) (level : Bool), Inv s →
    ∃ t, exec (.edge d level) s = .next t ∧
      t.resp = ⟨.ok, if YieldsBit s d then BitVec.ofNat 85 (2 + (!level).toNat) else 0#85⟩

/-- The frame of `EDGE`. The configuration and the port never change; `SR` and `SYNCED` change only while unsynced, `NIB`,
`NIBPOS` and `HASPAYLOAD` only while not ready; a rejected edge and an edge while ready change no byte of anything but `PHASE`; and
the buffer reads as before at every address but `PPOS`, unless the command starts a fill or completes a double-rate one. The draw
counter of the free value, the model's own and not the spec's (log entry 8), changes only when `HASPAYLOAD` does. -/
def Obligations.EdgeFrame : Prop :=
  ∀ (s t : State) (d : Duration) (level : Bool), exec (.edge d level) s = .next t →
    t.cfg = s.cfg ∧ t.port = s.port ∧
    (¬ YieldsBit s d ∨ s.hasPayload = true → t = { s with phase := t.phase, resp := t.resp }) ∧
    (s.synced = true → t.sr = s.sr ∧ t.synced = true) ∧
    (s.synced = false → t.hasPayload = s.hasPayload ∧ t.draw = s.draw) ∧
    (t.hasPayload = s.hasPayload → t.draw = s.draw) ∧
    (s.synced = false → t.synced = false → t.pbuf = s.pbuf ∧ t.nib = s.nib ∧ t.nibpos = s.nibpos) ∧
    (s.synced = true → s.nibpos ≠ 3#2 → ∀ a, t.nibbleAt a = s.nibbleAt a) ∧
    (s.synced = true → (t.hasPayload = false ∨ s.cfg.dbl = false) → ∀ a ≠ s.ppos, t.nibbleAt a = s.nibbleAt a)

/-- R44: four recovered bits at a nibble boundary append the nibble `b0 + 2·b1 + 4·b2 + 8·b3`. -/
def Obligations.NibbleFillsLeastSignificantFirst : Prop :=
  ∀ (s : State) (b0 b1 b2 b3 : Bool), s.hasPayload = false → s.synced = true → s.nib = 0#4 → s.nibpos = 0#2 → s.ppos < 28 →
    s.ppos + 1 ≠ s.cfg.fillTarget →
    ingestBits [b0, b1, b2, b3] s =
      some { s with pbuf := s.pbuf ++ [BitVec.ofNat 4 (b0.toNat + 2 * b1.toNat + 4 * b2.toNat + 8 * b3.toNat)] }

/-- A fill takes exactly `4 · target` recovered bits: before that the cursors count the bits and the payload is not ready, and
with that many it is. -/
def Obligations.FillTakesFourBitsPerNibble : Prop :=
  ∀ (s : State) (bits : List Bool), Inv s → s.hasPayload = false → s.synced = true → s.pbuf = [] → s.nibpos = 0#2 →
    (bits.length < 4 * s.cfg.fillTarget →
      ∃ t, ingestBits bits s = some t ∧ t.hasPayload = false ∧ t.ppos = bits.length / 4 ∧ t.nibpos.toNat = bits.length % 4) ∧
    (bits.length = 4 * s.cfg.fillTarget →
      ∃ t, ingestBits bits s = some t ∧ t.hasPayload = true ∧ t.ppos = s.cfg.len ∧ t.nibpos = 0#2)

/-- A single-rate fill stores the bit stream: nibble `i` of the payload is made of bits `4i` to `4i+3`, the first lowest. -/
def Obligations.SingleRateFillStoresBitStream : Prop :=
  ∀ (s : State) (bits : List Bool), Inv s → s.hasPayload = false → s.synced = true → s.pbuf = [] → s.nibpos = 0#2 →
    s.cfg.dbl = false → bits.length = 4 * s.cfg.len →
    ∃ t, ingestBits bits s = some t ∧ t.hasPayload = true ∧ t.ppos = s.cfg.len ∧
      ∀ i < s.cfg.len, nibbleNum t i = (bits.getD (4 * i) false).toNat + 2 * (bits.getD (4 * i + 1) false).toNat +
        4 * (bits.getD (4 * i + 2) false).toNat + 8 * (bits.getD (4 * i + 3) false).toNat

/-! ### The sync window -/

/-- Bit `k` of the shift register is the bit recovered `k` bits earlier, below `SYNCLEN`, and 0 above. -/
def Obligations.ShiftRegisterHoldsRecentBits : Prop :=
  ∀ (n : Nat) (bits : List Bool) (k : Nat), n ≤ 64 →
    (bits.foldl (shiftIn n) 0#64).getLsbD k = (decide (k < n) && bits.reverse.getD k false)

/-- The matcher cannot fire before the `SYNCLEN`-th recovered bit after reset, and the bits of the pattern, first bit most
significant, do make it fire. -/
def Obligations.SyncFiresOnThePatternNotBefore : Prop :=
  ∀ c : LaneConfig, c.legal = true →
    (∀ bits : List Bool, bits.length < c.synclen → bits.foldl (shiftIn c.synclen) 0#64 ≠ c.syncpat) ∧
    ((List.range c.synclen).map fun k => c.syncpat.getLsbD (c.synclen - 1 - k)).foldl (shiftIn c.synclen) 0#64 = c.syncpat

/-! ### RST and reset -/

/-- R97: `RST` puts all eight runtime fields to the values of a freshly reset lane of the same configuration and answers `OK`
with data 0. The port and the draw counter, which are the model's own, stay. -/
def Obligations.RstRestoresResetState : Prop :=
  ∀ s : State, s.cfg.legal = true →
    exec .rst s = .next { State.resetWith s.cfg with resp := ⟨.ok, 0#85⟩, port := s.port, draw := s.draw }

/-- R40: after power-on reset (a lane just built, and the reset input during operation) and after every `RST` the runtime state
is exactly the table's, and the configuration is untouched. -/
def Obligations.ResetValuesAreTheSpecs : Prop :=
  ∀ s : State,
    let isReset := fun t : State =>
      t.phase = .ac ∧ t.synced = false ∧ t.hasPayload = false ∧ t.sr = 0#64 ∧ t.pbuf = [] ∧ t.ppos = 0 ∧ t.nib = 0#4 ∧
      t.nibpos = 0#2 ∧ t.cfg = s.cfg
    isReset (State.resetWith s.cfg) ∧ isReset s.powerOnReset ∧
    (s.cfg.legal = true → ∃ t, exec .rst s = .next t ∧ isReset t)

/-- The status outputs are the three flags in every state, and all 0 after reset. -/
def Obligations.StatusOutputsAreTheFlags : Prop :=
  (∀ s : State, (s.phaseO = 1#1 ↔ s.phase = .ash) ∧ (s.syncedO = 1#1 ↔ s.synced = true) ∧ (s.readyO = 1#1 ↔ s.hasPayload = true)) ∧
  (∀ c : LaneConfig, (State.resetWith c).phaseO = 0#1 ∧ (State.resetWith c).syncedO = 0#1 ∧ (State.resetWith c).readyO = 0#1)

/-! ### The read commands -/

/-- The five read commands without a payload: `NOTREADY`, no data, no state change. -/
def Obligations.ReadsWithoutPayloadNotReady : Prop :=
  ∀ (s : State) (i : Instr), s.cfg.legal = true → s.hasPayload = false → isReadCommand i = true → i.wellFormed = true →
    exec i s = .next { s with resp := ⟨.notReady, 0#85⟩ }

/-- A field read past `PAYLEN`, and a `DECODE` whose layout needs more nibbles than `PAYLEN`, while the payload is ready:
`RANGE`, no data, no state change. -/
def Obligations.ReadsPastPayloadOutOfRange : Prop :=
  ∀ (s : State) (start : BitVec 5) (count : BitVec 4) (neg : Bool), s.cfg.legal = true → s.hasPayload = true →
    (s.cfg.len < start.toNat + 1 → exec (.rdnib start) s = .next { s with resp := ⟨.range, 0#85⟩ }) ∧
    (count.toNat ≤ 8 → s.cfg.len < start.toNat + count.toNat →
      exec (.duns start count) s = .next { s with resp := ⟨.range, 0#85⟩ } ∧
      exec (.dbcd start count neg) s = .next { s with resp := ⟨.range, 0#85⟩ }) ∧
    (s.cfg.len < need s.cfg → exec .decode s = .next { s with resp := ⟨.range, 0#85⟩ })

/-- R139 on the commands themselves: a format F command with `count` above 8 is `ILLEGAL` in every state, payload or not, in range
or not. The model gives such a command term, which no word spells, the answer its words get (log entry 10). -/
def Obligations.OverlongCountIsIllegalInAnyState : Prop :=
  ∀ (s : State) (start : BitVec 5) (count : BitVec 4) (neg : Bool), s.cfg.legal = true → 8 < count.toNat →
    exec (.duns start count) s = .next { s with resp := ⟨.illegal, 0#85⟩ } ∧
    exec (.dbcd start count neg) s = .next { s with resp := ⟨.illegal, 0#85⟩ }

/-- `RDNIB i` with a payload and `i` below `PAYLEN` answers nibble `i`. -/
def Obligations.RdnibAnswersNibble : Prop :=
  ∀ (s : State) (start : BitVec 5), s.cfg.legal = true → s.hasPayload = true → s.ppos = s.cfg.len → start.toNat < s.cfg.len →
    exec (.rdnib start) s = .next { s with resp := ⟨.ok, BitVec.ofNat 85 (nibbleNum s start.toNat)⟩ }

/-- `DUNS s, n` with a payload and `s + n ≤ PAYLEN` answers `Σ PBUF[s+k] · 16^(n−1−k)`. -/
def Obligations.DunsAnswersBase16Sum : Prop :=
  ∀ (s : State) (start : BitVec 5) (count : BitVec 4), s.cfg.legal = true → s.hasPayload = true → s.ppos = s.cfg.len →
    count.toNat ≤ 8 → start.toNat + count.toNat ≤ s.cfg.len →
    exec (.duns start count) s = .next { s with resp := ⟨.ok, BitVec.ofNat 85
      (∑ k ∈ Finset.range count.toNat, nibbleNum s (start.toNat + k) * 16 ^ (count.toNat - 1 - k))⟩ }

/-- `DBCD s, n, neg` with a payload and `s + n ≤ PAYLEN` answers `v mod 2^32`, where `v` is `Σ PBUF[s+k] · 10^(n−1−k)`,
negated when `neg` is 1. -/
def Obligations.DbcdAnswersBase10Sum : Prop :=
  ∀ (s : State) (start : BitVec 5) (count : BitVec 4) (neg : Bool), s.cfg.legal = true → s.hasPayload = true →
    s.ppos = s.cfg.len → count.toNat ≤ 8 → start.toNat + count.toNat ≤ s.cfg.len →
    exec (.dbcd start count neg) s = .next { s with resp := ⟨.ok, BitVec.ofNat 85
      (((if neg = true then -1 else 1) *
        (∑ k ∈ Finset.range count.toNat, nibbleNum s (start.toNat + k) * 10 ^ (count.toNat - 1 - k) : ℕ) : ℤ) % 2 ^ 32).toNat⟩ }

/-- R113: `|v| ≤ 15·(10^n − 1)/9` for `n` nibbles, below `10^n` for proper digits; for `n ≤ 8` the 32-bit two's complement result
is `v` exactly. -/
def Obligations.BcdRangeFitsThirtyTwoBits : Prop :=
  ∀ (l : List Nibble) (neg : Bool),
    9 * (signedBcd l neg).natAbs ≤ 15 * (10 ^ l.length - 1) ∧
    ((∀ n ∈ l, n.toNat ≤ 9) → (signedBcd l neg).natAbs ≤ 10 ^ l.length - 1) ∧
    (l.length ≤ 8 → (BitVec.ofInt 32 (signedBcd l neg)).toInt = signedBcd l neg)

/-- `CKSUM` with a payload answers the sum its algorithm gives, mod 256: `SUMA` indices 1 to `L − 2`, `SUMN` indices 0 to `L − 3`,
`SUMB` the bytes `16·P[2j] + P[2j+1]` for `j` below `(L − 2) // 2`. -/
def Obligations.CksumAnswersSelectedSum : Prop :=
  ∀ s : State, s.cfg.legal = true → s.hasPayload = true → s.ppos = s.cfg.len →
    exec .cksum s = .next { s with resp := ⟨.ok, BitVec.ofNat 85
      ((match s.cfg.cksel with
        | .suma => ∑ i ∈ Finset.range (s.cfg.len - 2), nibbleNum s (i + 1)
        | .sumn => ∑ i ∈ Finset.range (s.cfg.len - 2), nibbleNum s i
        | .sumb => ∑ j ∈ Finset.range ((s.cfg.len - 2) / 2), (16 * nibbleNum s (2 * j) + nibbleNum s (2 * j + 1))) % 256)⟩ }

/-- R105: with a payload the pseudo-instruction `EMBCK` answers `16 · PBUF[PAYLEN−2] + PBUF[PAYLEN−1]`. -/
def Obligations.EmbckAnswersEmbeddedChecksum : Prop :=
  ∀ s : State, s.cfg.legal = true → s.hasPayload = true → s.ppos = s.cfg.len →
    exec (readEmbedded s.cfg) s = .next { s with resp := ⟨.ok, BitVec.ofNat 85
      (16 * nibbleNum s (s.cfg.len - 2) + nibbleNum s (s.cfg.len - 1))⟩ }

/-! ### DECODE -/

/-- R128: the reading on the data bus, field by field. -/
def Obligations.PackPlacesEveryField : Prop :=
  ∀ r : Reading,
    (packReading r).extractLsb' 0 2 = r.protocolVersion ∧ (packReading r).extractLsb' 2 16 = r.deviceId ∧
    (packReading r).extractLsb' 18 8 = r.calculatedChecksum ∧ (packReading r).extractLsb' 26 8 = r.checksum ∧
    (packReading r).extractLsb' 34 8 = r.rollingCode ∧ (packReading r).extractLsb' 42 16 = r.humidity ∧
    (packReading r).extractLsb' 58 16 = r.celsius ∧ (packReading r).getLsbD 74 = r.batteryLow ∧
    (packReading r).extractLsb' 75 6 = r.flags ∧ (packReading r).extractLsb' 81 4 = r.channel

/-- R118, R119: the v1 reading. `n[i]` is `nibbleNum s i`. -/
def Obligations.DecodeV1Reading : Prop :=
  ∀ s : State, s.cfg.legal = true → s.hasPayload = true → s.ppos = s.cfg.len → s.cfg.variant = .v1 → 6 ≤ s.cfg.len →
    ∃ r : Reading, exec .decode s = .next { s with resp := ⟨.ok, packReading r⟩ } ∧
      r.channel.toNat = nibbleNum s 1 / 4 ∧
      r.flags.toNat = nibbleNum s 1 % 4 * 16 + nibbleNum s 5 ∧
      (r.batteryLow = true ↔ nibbleNum s 5 / 8 % 2 = 1) ∧
      r.celsius.toInt = (if nibbleNum s 5 / 2 % 2 = 1 then -1 else 1) *
        (100 * nibbleNum s 2 + 10 * nibbleNum s 3 + nibbleNum s 4 : ℕ) ∧
      r.humidity = 0#16 ∧ r.rollingCode.toNat = nibbleNum s 0 ∧ r.deviceId = 0#16

/-- R120, R121: the v2 reading; `channel` is the index of the highest set bit of nibble 4 where that nibble is not 0. -/
def Obligations.DecodeV2Reading : Prop :=
  ∀ s : State, s.cfg.legal = true → s.hasPayload = true → s.ppos = s.cfg.len → s.cfg.variant = .v2 → 12 ≤ s.cfg.len →
    ∃ r : Reading, exec .decode s = .next { s with resp := ⟨.ok, packReading r⟩ } ∧
      (nibbleNum s 4 ≠ 0 → 2 ^ r.channel.toNat ≤ nibbleNum s 4 ∧ nibbleNum s 4 < 2 ^ (r.channel.toNat + 1)) ∧
      r.deviceId.toNat =
        (4096 * nibbleNum s 0 + 256 * nibbleNum s 1 + 16 * nibbleNum s 2 + nibbleNum s 3) &&& 0xFFCF ∧
      r.flags.toNat = nibbleNum s 7 ∧ (r.batteryLow = true ↔ nibbleNum s 7 / 4 % 2 = 1) ∧
      r.celsius.toInt = (if nibbleNum s 11 ≠ 0 then -1 else 1) *
        (100 * nibbleNum s 8 + 10 * nibbleNum s 9 + nibbleNum s 10 : ℕ) ∧
      r.humidity = 0#16 ∧ r.rollingCode.toNat = 16 * nibbleNum s 5 + nibbleNum s 6

/-- R122 to R124: the v3 reading, with one or two humidity digits. -/
def Obligations.DecodeV3Reading : Prop :=
  ∀ s : State, s.cfg.legal = true → s.hasPayload = true → s.ppos = s.cfg.len → s.cfg.variant = .v3 →
    12 + s.cfg.humpl.places ≤ s.cfg.len →
    ∃ r : Reading, exec .decode s = .next { s with resp := ⟨.ok, packReading r⟩ } ∧
      r.channel.toNat = nibbleNum s 4 ∧
      r.deviceId.toNat =
        (4096 * nibbleNum s 0 + 256 * nibbleNum s 1 + 16 * nibbleNum s 2 + nibbleNum s 3) &&& 0xFFCF ∧
      r.flags.toNat = nibbleNum s 7 ∧ (r.batteryLow = true ↔ nibbleNum s 7 / 4 % 2 = 1) ∧
      r.celsius.toInt = (if nibbleNum s 11 ≠ 0 then -1 else 1) *
        (100 * nibbleNum s 8 + 10 * nibbleNum s 9 + nibbleNum s 10 : ℕ) ∧
      r.rollingCode.toNat = 16 * nibbleNum s 5 + nibbleNum s 6 ∧
      r.humidity.toNat = (match s.cfg.humpl with
        | .one => 10 * nibbleNum s 12
        | .two => 10 * (10 * nibbleNum s 12 + nibbleNum s 13))

/-- R117: in every layout a `DECODE` that executes carries the embedded checksum, the value `CKSUM` answers, and `VARIANT`. -/
def Obligations.DecodeCarriesBothChecksums : Prop :=
  ∀ s t u : State, s.ppos = s.cfg.len → exec .decode s = .next t → t.resp.st = .ok → exec .cksum s = .next u →
    (dataField t 26 8).toNat = 16 * nibbleNum s (s.cfg.len - 2) + nibbleNum s (s.cfg.len - 1) ∧
    dataField t 18 8 = dataField u 0 8 ∧ dataField t 0 2 = s.cfg.variant.code

/-- The free value reaches nothing but the `channel` field, and that only in a v2 reading whose nibble 4 is 0: two lanes that
differ in the draw counter alone answer `DECODE` alike but for that field. -/
def Obligations.FreeChannelReachesNothingElse : Prop :=
  ∀ (s t u : State) (k : Nat), exec .decode s = .next t → exec .decode { s with draw := k } = .next u →
    t.resp.st = u.resp.st ∧ dataField t 0 81 = dataField u 0 81 ∧
    (s.cfg.variant ≠ .v2 ∨ nibbleNum s 4 ≠ 0 → t.resp = u.resp)

/-! ### All commands -/

/-- `CLS` and the five read commands change nothing but the response. -/
def Obligations.ReadsAndClsOnlyRespond : Prop :=
  ∀ (s t : State) (i : Instr), (isReadCommand i = true ∨ ∃ d, i = .cls d) → exec i s = .next t → OnlyResponse s t

/-- `CLS` and the five read commands are idempotent: issued twice in a row they answer the same. -/
def Obligations.RepeatedReadAnswersTheSame : Prop :=
  ∀ (s t : State) (i : Instr), (isReadCommand i = true ∨ ∃ d, i = .cls d) → exec i s = .next t → exec i t = .next t

/-- Once a payload is ready, `DECODE` answers the same after any command but `RST`. -/
def Obligations.ReadingStaysUntilReset : Prop :=
  ∀ (s t u v : State) (i : Instr), s.hasPayload = true → i ≠ .rst → exec i s = .next t →
    exec .decode s = .next u → exec .decode t = .next v → v.resp = u.resp

/-- R138: a refused command changes no state, answers `DATA = 0`; and `EDGE`, `RST`, `CLS` are never refused. -/
def Obligations.RefusedCommandChangesNothing : Prop :=
  ∀ (s t : State) (i : Instr), exec i s = .next t →
    (t.resp.st ≠ .ok → t = { s with resp := ⟨t.resp.st, 0#85⟩ }) ∧
    (∀ d level, i = .edge d level → t.resp.st = .ok) ∧ (i = .rst → t.resp.st = .ok) ∧ (∀ d, i = .cls d → t.resp.st = .ok)

/-- The data of a response are zero above the result: `EDGE` and `CLS` use 2 bits, `CKSUM` 8, `DUNS` and `DBCD` 32, `RDNIB` 4, `RST`
none. -/
def Obligations.ResponseDataFitsTheResult : Prop :=
  ∀ (s t : State) (i : Instr), exec i s = .next t →
    t.resp.data.toNat < match i with
      | .edge _ _ => 4
      | .rst => 1
      | .cls _ => 3
      | .cksum => 2 ^ 8
      | .duns _ _ => 2 ^ 32
      | .dbcd _ _ _ => 2 ^ 32
      | .rdnib _ => 2 ^ 4
      | .decode => 2 ^ 85

/-- Once the payload is ready, no command but `RST` changes the buffer, the cursors, the shift register or the two flags. -/
def Obligations.PayloadFrozenUntilReset : Prop :=
  ∀ (s t : State) (i : Instr), s.hasPayload = true → i ≠ .rst → exec i s = .next t →
    t.pbuf = s.pbuf ∧ t.ppos = s.ppos ∧ t.nib = s.nib ∧ t.nibpos = s.nibpos ∧ t.sr = s.sr ∧ t.synced = s.synced ∧
    t.hasPayload = true

/-- R86: the transitions of the synchroniser, and no others. `RST` and power-on reset lead to Unsynced; a recovered bit that makes
the window equal `SYNCPAT` leads from Unsynced to Filling; one that completes the last nibble of the fill leads from Filling to
Ready; everything else stays. -/
def Obligations.SynchroniserTransitions : Prop :=
  (∀ (s t : State) (i : Instr), Inv s → exec i s = .next t →
    t.syncState =
      if i = .rst then some .unsynced
      else match recoveredBit s i, s.syncState with
        | some b, some .unsynced => if nextWindow s b = s.cfg.syncpat.toNat then some .filling else some .unsynced
        | some _, some .filling =>
          if s.nibpos = 3#2 ∧ s.ppos + 1 = s.cfg.fillTarget then some .ready else some .filling
        | _, now => now) ∧
  (∀ s : State, s.powerOnReset.syncState = some .unsynced)

/-! ### Invariants and safety -/

/-- A freshly reset lane with a legal configuration keeps the invariants, and so does the model's `State.reset`, whose
configuration, preset V1, is the model's choice (log entry 3). -/
def Obligations.ResetKeepsInvariants : Prop :=
  (∀ c : LaneConfig, c.legal = true → Inv (State.resetWith c)) ∧ Inv State.reset

/-- Every step keeps the invariants of a legal lane, from every state that has them, and leaves the configuration alone. -/
def Obligations.StepKeepsInvariants : Prop :=
  ∀ s t : State, Inv s → step s = .next t → Inv t ∧ t.cfg = s.cfg

/-- No run of a legal lane stops: from every state that keeps the invariants, whatever words are presented, every number of steps
goes through. In particular no fill overflows the buffer. -/
def Obligations.LegalLaneNeverStops : Prop :=
  ∀ (s : State) (k : Nat), Inv s → SafeRun k s

/-- R28: wires build a lane exactly when they are legal (every `CTAP[k]` is at most 7 by its three wires), and the lane built has
the wired values; the three presets are built. -/
def Obligations.OnlyLegalStrapsBuild : Prop :=
  (∀ r : Straps,
    (r.build.isSome = true ↔
      r.syncpat ≠ 0#64 ∧ (r.variant = 1#2 ∨ r.variant = 2#2 ∨ r.variant = 3#2) ∧
      (r.cksel = 0#2 ∨ r.cksel = 1#2 ∨ r.cksel = 2#2) ∧ 2 ≤ r.paylen.toNat ∧
      (r.dbl = false → r.paylen.toNat ≤ 28) ∧ (r.dbl = true → r.paylen.toNat ≤ 14) ∧
      (r.humpl = 1#2 ∨ r.humpl = 2#2)) ∧
    (∀ c, r.build = some c → c.straps = r ∧ c.legal = true)) ∧
  (∀ c ∈ [presetV1, presetV2, presetV3], c.straps.build = some c)

/-- A lane whose configuration is not legal executes no command: the model refuses it by name (the model's way of not building
such a lane, log entry 4). -/
def Obligations.IllegalConfigurationRefused : Prop :=
  ∀ (s : State) (i : Instr), s.cfg.legal = false → exec i s = .refused .illegalConfiguration

/-- The three presets are legal, with the derived values of their table. -/
def Obligations.PresetsAreLegal : Prop :=
  (presetV1.legal = true ∧ presetV1.synclen = 12 ∧ presetV1.half = 1461 ∧ presetV1.fillTarget = 8 ∧ need presetV1 ≤ 8) ∧
  (presetV2.legal = true ∧ presetV2.synclen = 42 ∧ presetV2.half = 488 ∧ presetV2.fillTarget = 28 ∧ need presetV2 ≤ 14) ∧
  (presetV3.legal = true ∧ presetV3.synclen = 28 ∧ presetV3.half = 488 ∧ presetV3.fillTarget = 17 ∧ need presetV3 ≤ 17)

/-- Steps of different lanes of a system commute: the two orders end in the same state, and neither stops where the single
steps did not. -/
def Obligations.LaneStepsCommute : Prop :=
  ∀ (n : Nat) (sys a b : System n) (j k : Fin n), j ≠ k →
    sys.stepLane j = .next a → sys.stepLane k = .next b →
    ∃ c, a.stepLane k = .next c ∧ b.stepLane j = .next c
end

