-- ==== Sys2Proof/Laws/Bits.lean ====
section
/-! SUPPORT. Bit vectors as numbers, and the bounds of the derived configuration registers. -/

namespace Sys2Proof.Machine

/-- Concatenation as a number: the left part is the more significant one. -/
theorem append_toNat {m n : ℕ} (x : BitVec m) (y : BitVec n) : (x ++ y).toNat = x.toNat * 2^n + y.toNat := by
  rw [BitVec.toNat_append, ← Nat.shiftLeft_add_eq_or_of_lt y.isLt, Nat.shiftLeft_eq]

/-- A bit of a vector, read from the vector's number. -/
theorem getLsbD_nat {n} (x : BitVec n) (k) : x.getLsbD k = decide (x.toNat / 2^k % 2 = 1) := by
  rw [← BitVec.testBit_toNat, Nat.testBit_eq_decide_div_mod_eq]

/-- `bitlen` is at most any width the value fits in (R11). -/
theorem bitlen_le {v n : Nat} (h : v < 2^n) : bitlen v ≤ n := by
  unfold bitlen; split
  · omega
  · have := (Nat.log2_lt (k := n) ‹_›).2 h; omega

/-- A value fits in its `bitlen` (R11). -/
theorem lt_bitlen (v : Nat) : v < 2 ^ bitlen v := by
  unfold bitlen; split
  · simp_all
  · exact Nat.lt_log2_self

/-- `SYNCLEN` is at most 64 (R22). -/
theorem synclen_le (c : LaneConfig) : c.synclen ≤ 64 := bitlen_le c.syncpat.isLt

/-- The legality predicate as a proposition (R28). -/
theorem legal_iff {c : LaneConfig} : c.legal = true ↔ c.syncpat ≠ 0#64 ∧ 2 ≤ c.len ∧ c.len ≤ (if c.dbl = true then 14 else 28) := by
  simp only [LaneConfig.legal, Bool.and_eq_true, decide_eq_true_eq, and_assoc]

/-- The fill target of a legal lane lies inside the buffer (R91). -/
theorem fillTarget_le {c : LaneConfig} (h : c.legal = true) : c.fillTarget ≤ 28 ∧ 2 ≤ c.fillTarget := by
  obtain ⟨-, h1, h2⟩ := legal_iff.1 h
  unfold LaneConfig.fillTarget
  cases hd : c.dbl <;> simp [hd] at h2 ⊢ <;> omega

end Sys2Proof.Machine
end

