-- ==== Sys2Proof/Laws/State.lean ====
section
/-! SUPPORT. One lemma per field per named update of the state, all by rfl. -/

namespace Sys2Proof.Machine

/-! ### withPhase -/

@[simp] theorem State.withPhase_cfg (s : State) (p : Phase) : (s.withPhase p).cfg = s.cfg := rfl
@[simp] theorem State.withPhase_phase (s : State) (p : Phase) : (s.withPhase p).phase = p := rfl
@[simp] theorem State.withPhase_synced (s : State) (p : Phase) : (s.withPhase p).synced = s.synced := rfl
@[simp] theorem State.withPhase_hasPayload (s : State) (p : Phase) : (s.withPhase p).hasPayload = s.hasPayload := rfl
@[simp] theorem State.withPhase_sr (s : State) (p : Phase) : (s.withPhase p).sr = s.sr := rfl
@[simp] theorem State.withPhase_pbuf (s : State) (p : Phase) : (s.withPhase p).pbuf = s.pbuf := rfl
@[simp] theorem State.withPhase_nib (s : State) (p : Phase) : (s.withPhase p).nib = s.nib := rfl
@[simp] theorem State.withPhase_nibpos (s : State) (p : Phase) : (s.withPhase p).nibpos = s.nibpos := rfl
@[simp] theorem State.withPhase_resp (s : State) (p : Phase) : (s.withPhase p).resp = s.resp := rfl
@[simp] theorem State.withPhase_port (s : State) (p : Phase) : (s.withPhase p).port = s.port := rfl
@[simp] theorem State.withPhase_draw (s : State) (p : Phase) : (s.withPhase p).draw = s.draw := rfl
@[simp] theorem State.withPhase_ppos (s : State) (p : Phase) : (s.withPhase p).ppos = s.ppos := rfl

/-! ### withSr -/

@[simp] theorem State.withSr_cfg (s : State) (v : BitVec 64) : (s.withSr v).cfg = s.cfg := rfl
@[simp] theorem State.withSr_phase (s : State) (v : BitVec 64) : (s.withSr v).phase = s.phase := rfl
@[simp] theorem State.withSr_synced (s : State) (v : BitVec 64) : (s.withSr v).synced = s.synced := rfl
@[simp] theorem State.withSr_hasPayload (s : State) (v : BitVec 64) : (s.withSr v).hasPayload = s.hasPayload := rfl
@[simp] theorem State.withSr_sr (s : State) (v : BitVec 64) : (s.withSr v).sr = v := rfl
@[simp] theorem State.withSr_pbuf (s : State) (v : BitVec 64) : (s.withSr v).pbuf = s.pbuf := rfl
@[simp] theorem State.withSr_nib (s : State) (v : BitVec 64) : (s.withSr v).nib = s.nib := rfl
@[simp] theorem State.withSr_nibpos (s : State) (v : BitVec 64) : (s.withSr v).nibpos = s.nibpos := rfl
@[simp] theorem State.withSr_resp (s : State) (v : BitVec 64) : (s.withSr v).resp = s.resp := rfl
@[simp] theorem State.withSr_port (s : State) (v : BitVec 64) : (s.withSr v).port = s.port := rfl
@[simp] theorem State.withSr_draw (s : State) (v : BitVec 64) : (s.withSr v).draw = s.draw := rfl
@[simp] theorem State.withSr_ppos (s : State) (v : BitVec 64) : (s.withSr v).ppos = s.ppos := rfl

/-! ### withNibble -/

@[simp] theorem State.withNibble_cfg (s : State) (v : BitVec 4) (n : BitVec 2) : (s.withNibble v n).cfg = s.cfg := rfl
@[simp] theorem State.withNibble_phase (s : State) (v : BitVec 4) (n : BitVec 2) : (s.withNibble v n).phase = s.phase := rfl
@[simp] theorem State.withNibble_synced (s : State) (v : BitVec 4) (n : BitVec 2) : (s.withNibble v n).synced = s.synced := rfl
@[simp] theorem State.withNibble_hasPayload (s : State) (v : BitVec 4) (n : BitVec 2) : (s.withNibble v n).hasPayload = s.hasPayload := rfl
@[simp] theorem State.withNibble_sr (s : State) (v : BitVec 4) (n : BitVec 2) : (s.withNibble v n).sr = s.sr := rfl
@[simp] theorem State.withNibble_pbuf (s : State) (v : BitVec 4) (n : BitVec 2) : (s.withNibble v n).pbuf = s.pbuf := rfl
@[simp] theorem State.withNibble_nib (s : State) (v : BitVec 4) (n : BitVec 2) : (s.withNibble v n).nib = v := rfl
@[simp] theorem State.withNibble_nibpos (s : State) (v : BitVec 4) (n : BitVec 2) : (s.withNibble v n).nibpos = n := rfl
@[simp] theorem State.withNibble_resp (s : State) (v : BitVec 4) (n : BitVec 2) : (s.withNibble v n).resp = s.resp := rfl
@[simp] theorem State.withNibble_port (s : State) (v : BitVec 4) (n : BitVec 2) : (s.withNibble v n).port = s.port := rfl
@[simp] theorem State.withNibble_draw (s : State) (v : BitVec 4) (n : BitVec 2) : (s.withNibble v n).draw = s.draw := rfl
@[simp] theorem State.withNibble_ppos (s : State) (v : BitVec 4) (n : BitVec 2) : (s.withNibble v n).ppos = s.ppos := rfl

/-! ### withPbuf -/

@[simp] theorem State.withPbuf_cfg (s : State) (m : Memory) : (s.withPbuf m).cfg = s.cfg := rfl
@[simp] theorem State.withPbuf_phase (s : State) (m : Memory) : (s.withPbuf m).phase = s.phase := rfl
@[simp] theorem State.withPbuf_synced (s : State) (m : Memory) : (s.withPbuf m).synced = s.synced := rfl
@[simp] theorem State.withPbuf_hasPayload (s : State) (m : Memory) : (s.withPbuf m).hasPayload = s.hasPayload := rfl
@[simp] theorem State.withPbuf_sr (s : State) (m : Memory) : (s.withPbuf m).sr = s.sr := rfl
@[simp] theorem State.withPbuf_pbuf (s : State) (m : Memory) : (s.withPbuf m).pbuf = m := rfl
@[simp] theorem State.withPbuf_nib (s : State) (m : Memory) : (s.withPbuf m).nib = s.nib := rfl
@[simp] theorem State.withPbuf_nibpos (s : State) (m : Memory) : (s.withPbuf m).nibpos = s.nibpos := rfl
@[simp] theorem State.withPbuf_resp (s : State) (m : Memory) : (s.withPbuf m).resp = s.resp := rfl
@[simp] theorem State.withPbuf_port (s : State) (m : Memory) : (s.withPbuf m).port = s.port := rfl
@[simp] theorem State.withPbuf_draw (s : State) (m : Memory) : (s.withPbuf m).draw = s.draw := rfl
@[simp] theorem State.withPbuf_ppos (s : State) (m : Memory) : (s.withPbuf m).ppos = m.length := rfl

/-! ### startFill -/

@[simp] theorem State.startFill_cfg (s : State) : s.startFill.cfg = s.cfg := rfl
@[simp] theorem State.startFill_phase (s : State) : s.startFill.phase = s.phase := rfl
@[simp] theorem State.startFill_synced (s : State) : s.startFill.synced = true := rfl
@[simp] theorem State.startFill_hasPayload (s : State) : s.startFill.hasPayload = s.hasPayload := rfl
@[simp] theorem State.startFill_sr (s : State) : s.startFill.sr = s.sr := rfl
@[simp] theorem State.startFill_pbuf (s : State) : s.startFill.pbuf = [] := rfl
@[simp] theorem State.startFill_nib (s : State) : s.startFill.nib = 0#4 := rfl
@[simp] theorem State.startFill_nibpos (s : State) : s.startFill.nibpos = 0#2 := rfl
@[simp] theorem State.startFill_resp (s : State) : s.startFill.resp = s.resp := rfl
@[simp] theorem State.startFill_port (s : State) : s.startFill.port = s.port := rfl
@[simp] theorem State.startFill_draw (s : State) : s.startFill.draw = s.draw := rfl
@[simp] theorem State.startFill_ppos (s : State) : s.startFill.ppos = 0 := rfl

/-! ### markReady -/

@[simp] theorem State.markReady_cfg (s : State) : s.markReady.cfg = s.cfg := rfl
@[simp] theorem State.markReady_phase (s : State) : s.markReady.phase = s.phase := rfl
@[simp] theorem State.markReady_synced (s : State) : s.markReady.synced = s.synced := rfl
@[simp] theorem State.markReady_hasPayload (s : State) : s.markReady.hasPayload = true := rfl
@[simp] theorem State.markReady_sr (s : State) : s.markReady.sr = s.sr := rfl
@[simp] theorem State.markReady_pbuf (s : State) : s.markReady.pbuf = s.pbuf := rfl
@[simp] theorem State.markReady_nib (s : State) : s.markReady.nib = s.nib := rfl
@[simp] theorem State.markReady_nibpos (s : State) : s.markReady.nibpos = s.nibpos := rfl
@[simp] theorem State.markReady_resp (s : State) : s.markReady.resp = s.resp := rfl
@[simp] theorem State.markReady_port (s : State) : s.markReady.port = s.port := rfl
@[simp] theorem State.markReady_draw (s : State) : s.markReady.draw = s.draw + 1 := rfl
@[simp] theorem State.markReady_ppos (s : State) : s.markReady.ppos = s.ppos := rfl

/-! ### clearRuntime -/

@[simp] theorem State.clearRuntime_cfg (s : State) : s.clearRuntime.cfg = s.cfg := rfl
@[simp] theorem State.clearRuntime_phase (s : State) : s.clearRuntime.phase = .ac := rfl
@[simp] theorem State.clearRuntime_synced (s : State) : s.clearRuntime.synced = false := rfl
@[simp] theorem State.clearRuntime_hasPayload (s : State) : s.clearRuntime.hasPayload = false := rfl
@[simp] theorem State.clearRuntime_sr (s : State) : s.clearRuntime.sr = 0#64 := rfl
@[simp] theorem State.clearRuntime_pbuf (s : State) : s.clearRuntime.pbuf = [] := rfl
@[simp] theorem State.clearRuntime_nib (s : State) : s.clearRuntime.nib = 0#4 := rfl
@[simp] theorem State.clearRuntime_nibpos (s : State) : s.clearRuntime.nibpos = 0#2 := rfl
@[simp] theorem State.clearRuntime_resp (s : State) : s.clearRuntime.resp = s.resp := rfl
@[simp] theorem State.clearRuntime_port (s : State) : s.clearRuntime.port = s.port := rfl
@[simp] theorem State.clearRuntime_draw (s : State) : s.clearRuntime.draw = s.draw := rfl
@[simp] theorem State.clearRuntime_ppos (s : State) : s.clearRuntime.ppos = 0 := rfl

/-! ### withResponse -/

@[simp] theorem State.withResponse_cfg (s : State) (r : Response) : (s.withResponse r).cfg = s.cfg := rfl
@[simp] theorem State.withResponse_phase (s : State) (r : Response) : (s.withResponse r).phase = s.phase := rfl
@[simp] theorem State.withResponse_synced (s : State) (r : Response) : (s.withResponse r).synced = s.synced := rfl
@[simp] theorem State.withResponse_hasPayload (s : State) (r : Response) : (s.withResponse r).hasPayload = s.hasPayload := rfl
@[simp] theorem State.withResponse_sr (s : State) (r : Response) : (s.withResponse r).sr = s.sr := rfl
@[simp] theorem State.withResponse_pbuf (s : State) (r : Response) : (s.withResponse r).pbuf = s.pbuf := rfl
@[simp] theorem State.withResponse_nib (s : State) (r : Response) : (s.withResponse r).nib = s.nib := rfl
@[simp] theorem State.withResponse_nibpos (s : State) (r : Response) : (s.withResponse r).nibpos = s.nibpos := rfl
@[simp] theorem State.withResponse_resp (s : State) (r : Response) : (s.withResponse r).resp = r := rfl
@[simp] theorem State.withResponse_port (s : State) (r : Response) : (s.withResponse r).port = s.port := rfl
@[simp] theorem State.withResponse_draw (s : State) (r : Response) : (s.withResponse r).draw = s.draw := rfl
@[simp] theorem State.withResponse_ppos (s : State) (r : Response) : (s.withResponse r).ppos = s.ppos := rfl

/-! ### withPort -/

@[simp] theorem State.withPort_cfg (s : State) (q : List CommandWord) : (s.withPort q).cfg = s.cfg := rfl
@[simp] theorem State.withPort_phase (s : State) (q : List CommandWord) : (s.withPort q).phase = s.phase := rfl
@[simp] theorem State.withPort_synced (s : State) (q : List CommandWord) : (s.withPort q).synced = s.synced := rfl
@[simp] theorem State.withPort_hasPayload (s : State) (q : List CommandWord) : (s.withPort q).hasPayload = s.hasPayload := rfl
@[simp] theorem State.withPort_sr (s : State) (q : List CommandWord) : (s.withPort q).sr = s.sr := rfl
@[simp] theorem State.withPort_pbuf (s : State) (q : List CommandWord) : (s.withPort q).pbuf = s.pbuf := rfl
@[simp] theorem State.withPort_nib (s : State) (q : List CommandWord) : (s.withPort q).nib = s.nib := rfl
@[simp] theorem State.withPort_nibpos (s : State) (q : List CommandWord) : (s.withPort q).nibpos = s.nibpos := rfl
@[simp] theorem State.withPort_resp (s : State) (q : List CommandWord) : (s.withPort q).resp = s.resp := rfl
@[simp] theorem State.withPort_port (s : State) (q : List CommandWord) : (s.withPort q).port = q := rfl
@[simp] theorem State.withPort_draw (s : State) (q : List CommandWord) : (s.withPort q).draw = s.draw := rfl
@[simp] theorem State.withPort_ppos (s : State) (q : List CommandWord) : (s.withPort q).ppos = s.ppos := rfl

/-! ### give -/

@[simp] theorem State.give_cfg (s : State) (w : CommandWord) : (s.give w).cfg = s.cfg := rfl
@[simp] theorem State.give_phase (s : State) (w : CommandWord) : (s.give w).phase = s.phase := rfl
@[simp] theorem State.give_synced (s : State) (w : CommandWord) : (s.give w).synced = s.synced := rfl
@[simp] theorem State.give_hasPayload (s : State) (w : CommandWord) : (s.give w).hasPayload = s.hasPayload := rfl
@[simp] theorem State.give_sr (s : State) (w : CommandWord) : (s.give w).sr = s.sr := rfl
@[simp] theorem State.give_pbuf (s : State) (w : CommandWord) : (s.give w).pbuf = s.pbuf := rfl
@[simp] theorem State.give_nib (s : State) (w : CommandWord) : (s.give w).nib = s.nib := rfl
@[simp] theorem State.give_nibpos (s : State) (w : CommandWord) : (s.give w).nibpos = s.nibpos := rfl
@[simp] theorem State.give_resp (s : State) (w : CommandWord) : (s.give w).resp = s.resp := rfl
@[simp] theorem State.give_port (s : State) (w : CommandWord) : (s.give w).port = s.port ++ [w] := rfl
@[simp] theorem State.give_draw (s : State) (w : CommandWord) : (s.give w).draw = s.draw := rfl
@[simp] theorem State.give_ppos (s : State) (w : CommandWord) : (s.give w).ppos = s.ppos := rfl

/-! ### resetWith -/

@[simp] theorem State.resetWith_cfg (c : LaneConfig) : (State.resetWith c).cfg = c := rfl
@[simp] theorem State.resetWith_phase (c : LaneConfig) : (State.resetWith c).phase = .ac := rfl
@[simp] theorem State.resetWith_synced (c : LaneConfig) : (State.resetWith c).synced = false := rfl
@[simp] theorem State.resetWith_hasPayload (c : LaneConfig) : (State.resetWith c).hasPayload = false := rfl
@[simp] theorem State.resetWith_sr (c : LaneConfig) : (State.resetWith c).sr = 0#64 := rfl
@[simp] theorem State.resetWith_pbuf (c : LaneConfig) : (State.resetWith c).pbuf = [] := rfl
@[simp] theorem State.resetWith_nib (c : LaneConfig) : (State.resetWith c).nib = 0#4 := rfl
@[simp] theorem State.resetWith_nibpos (c : LaneConfig) : (State.resetWith c).nibpos = 0#2 := rfl
@[simp] theorem State.resetWith_resp (c : LaneConfig) : (State.resetWith c).resp = ⟨.ok, 0#85⟩ := rfl
@[simp] theorem State.resetWith_port (c : LaneConfig) : (State.resetWith c).port = [] := rfl
@[simp] theorem State.resetWith_draw (c : LaneConfig) : (State.resetWith c).draw = 0 := rfl
@[simp] theorem State.resetWith_ppos (c : LaneConfig) : (State.resetWith c).ppos = 0 := rfl

end Sys2Proof.Machine
end

