-- ==== Sys2Proof/Laws/Ops.lean ====
section
/-! SUPPORT. What each shared operation can do, said once: the gate, the responses, the buffer, the field reader. -/

namespace Sys2Proof.Machine

/-- Below the legality gate: a command that answers a next state ran in a legal lane. -/
theorem onLane_next {s t : State} {k : Outcome} : onLane s k = .next t ↔ s.cfg.legal = true ∧ k = .next t := by
  unfold onLane; split <;> simp_all

/-- In a legal lane the gate is open. -/
@[simp] theorem onLane_of_legal {s : State} {k : Outcome} (h : s.cfg.legal = true) : onLane s k = k := by simp [onLane, h]

/-- In an illegal lane the gate refuses by name. -/
theorem onLane_of_illegal {s : State} {k : Outcome} (h : s.cfg.legal = false) :
    onLane s k = .refused .illegalConfiguration := by simp [onLane, h]

/-- The one answer of `respond` (R15). -/
theorem respond_next {s t : State} {v : ResponseData} : respond s v = .next t ↔ t = s.withResponse ⟨.ok, v⟩ := by
  simp [respond, eq_comm]

/-- The one answer of `refuse`: its status, no data, nothing else (R138). -/
theorem refuse_next {s t : State} {c : Status} : refuse s c = .next t ↔ t = s.withResponse ⟨c, 0#85⟩ := by
  simp [refuse, eq_comm]

/-- `MemRead` is defined exactly on the indices of a ready payload, and reads them in order (R14). -/
theorem memRead_eq_some {s : State} {i n : Nat} {l : List Nibble} :
    memRead s i n = some l ↔ s.hasPayload = true ∧ i + n ≤ s.ppos ∧ l = (s.pbuf.drop i).take n := by
  by_cases h : s.hasPayload = true ∧ i + n ≤ s.ppos
  · simp only [memRead, h, and_self, if_true, Option.some.injEq, true_and]; exact eq_comm
  · simp only [memRead, h, if_false, reduceCtorEq, false_iff]; tauto

/-- A defined `MemRead` returns as many nibbles as it was asked for. -/
theorem memRead_length {s : State} {i n : Nat} {l : List Nibble} (h : memRead s i n = some l) : l.length = n := by
  obtain ⟨-, hb, rfl⟩ := memRead_eq_some.1 h
  simp only [State.ppos] at hb
  simp; omega

/-- Everything an append can do: it adds the nibble at `PPOS`, inside the buffer. -/
theorem Memory.append_eq_some {m m' : Memory} {v : Nibble} :
    Memory.append m v = some m' ↔ m.length < capacity ∧ m' = m ++ [v] := by
  by_cases h : m.length < capacity
  · simp only [Memory.append, h, if_true, Option.some.injEq, true_and]; exact eq_comm
  · simp [Memory.append, h]

/-- Everything a field read can answer: one of three responses, and nothing else changes (R107). -/
theorem readField_next {s t : State} {start count : Nat} {f : List Nibble → ResponseData}
    (h : readField s start count f = .next t) :
    (s.hasPayload = false ∧ t = s.withResponse ⟨.notReady, 0#85⟩) ∨
    (s.hasPayload = true ∧ (s.cfg.len < start + count ∨ s.ppos < start + count) ∧ t = s.withResponse ⟨.range, 0#85⟩) ∨
    (s.hasPayload = true ∧ start + count ≤ s.cfg.len ∧ start + count ≤ s.ppos ∧
      t = s.withResponse ⟨.ok, f ((s.pbuf.drop start).take count)⟩) := by
  unfold readField at h
  split at h
  · exact .inl ⟨‹_›, refuse_next.1 h⟩
  · have hp : s.hasPayload = true := by simpa using ‹¬ s.hasPayload = false›
    split at h
    · exact .inr (.inl ⟨hp, .inl ‹_›, refuse_next.1 h⟩)
    · split at h
      · obtain ⟨-, hb, rfl⟩ := memRead_eq_some.1 ‹_›
        exact .inr (.inr ⟨hp, by omega, hb, respond_next.1 h⟩)
      · rename_i hn
        refine .inr (.inl ⟨hp, .inr ?_, refuse_next.1 h⟩)
        by_contra hc
        have hb : start + count ≤ s.ppos := by omega
        rw [memRead_eq_some.2 ⟨hp, hb, rfl⟩] at hn
        cases hn

/-- A field read inside a ready payload answers the value of its nibbles (R107). -/
theorem readField_ok {s : State} {start count : Nat} {f : List Nibble → ResponseData} (hp : s.hasPayload = true)
    (hl : s.ppos = s.cfg.len) (hb : start + count ≤ s.cfg.len) :
    readField s start count f = .next (s.withResponse ⟨.ok, f ((s.pbuf.drop start).take count)⟩) := by
  have hm : memRead s start count = some ((s.pbuf.drop start).take count) :=
    memRead_eq_some.2 ⟨hp, by omega, rfl⟩
  simp [readField, hp, hm, respond, show ¬ s.cfg.len < start + count by omega]

/-- A field read without a payload is refused (R107). -/
theorem readField_notReady {s : State} {start count : Nat} {f : List Nibble → ResponseData} (hp : s.hasPayload = false) :
    readField s start count f = .next (s.withResponse ⟨.notReady, 0#85⟩) := by simp [readField, hp, refuse]

/-- A field read past `PAYLEN` is refused (R107). -/
theorem readField_range {s : State} {start count : Nat} {f : List Nibble → ResponseData} (hp : s.hasPayload = true)
    (hb : s.cfg.len < start + count) :
    readField s start count f = .next (s.withResponse ⟨.range, 0#85⟩) := by simp [readField, hp, hb, refuse]

/-- A field read never stops. -/
theorem readField_answers (s : State) (start count : Nat) (f : List Nibble → ResponseData) :
    ∃ t, readField s start count f = .next t := by
  unfold readField respond refuse
  split
  · exact ⟨_, rfl⟩
  · split
    · exact ⟨_, rfl⟩
    · split <;> exact ⟨_, rfl⟩

end Sys2Proof.Machine
end

