-- ==== Sys2Proof/Laws/Classifier.lean ====
section
/-! SUPPORT. What the bit recoverer and CLS can do. -/

namespace Sys2Proof.Machine

/-- A rejected edge (R133). -/
theorem recoverBit_none {c : LaneConfig} {p : Phase} {d : Duration} {l : Bool}
    (h : classify c d = .invalid ∨ (p = .ash ∧ classify c d = .half)) : recoverBit c p d l = (.ac, none) := by
  rcases h with h | ⟨rfl, h⟩
  · cases p <;> simp [recoverBit, h]
  · simp [recoverBit, h]

/-- An edge that yields a bit (R80). -/
theorem recoverBit_some {c : LaneConfig} {p : Phase} {d : Duration} {l : Bool}
    (h : classify c d ≠ .invalid ∧ (p = .ac ∨ classify c d = .full)) : recoverBit c p d l = (.ash, some (!l)) := by
  obtain ⟨h1, h2⟩ := h
  rcases h2 with rfl | h2
  · unfold recoverBit; split <;> simp_all
  · cases p <;> simp [recoverBit, h2]

/-- Every edge either is rejected or yields the bit `1 − level` (R80). -/
theorem recoverBit_cases (c : LaneConfig) (p : Phase) (d : Duration) (l : Bool) :
    ((classify c d = .invalid ∨ (p = .ash ∧ classify c d = .half)) ∧ recoverBit c p d l = (.ac, none)) ∨
    ((classify c d ≠ .invalid ∧ (p = .ac ∨ classify c d = .full)) ∧ recoverBit c p d l = (.ash, some (!l))) := by
  by_cases h : classify c d = .invalid ∨ (p = .ash ∧ classify c d = .half)
  · exact .inl ⟨h, recoverBit_none h⟩
  · have h' : classify c d ≠ .invalid ∧ (p = .ac ∨ classify c d = .full) := by
      rcases hc : classify c d <;> cases p <;> simp_all
    exact .inr ⟨h', recoverBit_some h'⟩

/-- Everything `CLS` can answer (R83). -/
theorem execCls_next {d : Duration} {s t : State} (h : execCls d s = .next t) :
    s.cfg.legal = true ∧ t = s.withResponse ⟨.ok, toData (classify s.cfg d).code⟩ := by
  obtain ⟨hl, h⟩ := onLane_next.1 h; exact ⟨hl, respond_next.1 h⟩

end Sys2Proof.Machine
end

