-- ==== Sys2Proof/Laws/Decode.lean ====
section
/-! SUPPORT. The decoder and the encoder as arithmetic on the word's number. -/

namespace Sys2Proof

open Sys2Proof.Machine (append_toNat)

/-- A field of a word as a number (R12). -/
theorem wordField_toNat (w : CommandWord) (lo len : Nat) : (wordField w lo len).toNat = w.toNat / 2^lo % 2^len := by
  simp [wordField, Nat.shiftRight_eq_div_pow]

/-- When a word passes the reserved-field check (R66). -/
theorem requireZero_ok {n} {z : BitVec n} {k i} : requireZero z k = .ok i ↔ z = 0#n ∧ k = .ok i := by
  unfold requireZero; split <;> simp_all

/-- When a word passes the count check (R67). -/
theorem requireCount_ok {c : BitVec 4} {k i} : requireCount c k = .ok i ↔ c.toNat ≤ 8 ∧ k = .ok i := by
  unfold requireCount countOk; split <;> simp_all

/-- The number of each command's word (R64). -/
theorem encode_toNat (i : Instr) : (encode i).toNat = match i with
  | .edge d l => 2^36 + 2^32 * l.toNat + d.toNat
  | .rst => 2 * 2^36
  | .cls d => 3 * 2^36 + d.toNat
  | .cksum => 4 * 2^36
  | .duns s c => 5 * 2^36 + 2^5 * c.toNat + s.toNat
  | .dbcd s c g => 6 * 2^36 + 2^9 * g.toNat + 2^5 * c.toNat + s.toNat
  | .rdnib s => 7 * 2^36 + s.toNat
  | .decode => 8 * 2^36 := by
  cases i <;> simp only [encode, append_toNat, BitVec.toNat_ofNat, BitVec.toNat_ofBool] <;> omega

/-- Everything the decoder can answer: the opcode, the zero fields, the count limit and the operands of each row (R68). -/
theorem decode_cases {w : CommandWord} {i : Instr} (h : decode w = .ok i) :
   ((wordField w 36 4).toNat = 1 ∧ wordField w 33 3 = 0#3 ∧ i = .edge (durationOf w) (levelOf w)) ∨
   ((wordField w 36 4).toNat = 2 ∧ wordField w 0 36 = 0#36 ∧ i = .rst) ∨
   ((wordField w 36 4).toNat = 3 ∧ wordField w 32 4 = 0#4 ∧ i = .cls (durationOf w)) ∨
   ((wordField w 36 4).toNat = 4 ∧ wordField w 0 36 = 0#36 ∧ i = .cksum) ∨
   ((wordField w 36 4).toNat = 5 ∧ wordField w 9 27 = 0#27 ∧ (countOf w).toNat ≤ 8 ∧ i = .duns (startOf w) (countOf w)) ∨
   ((wordField w 36 4).toNat = 6 ∧ wordField w 10 26 = 0#26 ∧ (countOf w).toNat ≤ 8 ∧ i = .dbcd (startOf w) (countOf w) (negOf w)) ∨
   ((wordField w 36 4).toNat = 7 ∧ wordField w 5 31 = 0#31 ∧ i = .rdnib (startOf w)) ∨
   ((wordField w 36 4).toNat = 8 ∧ wordField w 0 36 = 0#36 ∧ i = .decode) := by
  unfold decode at h
  split at h <;> rename_i ho <;> try cases h
  all_goals simp only [requireZero_ok, requireCount_ok, Except.ok.injEq] at h
  all_goals simp only [ho, h, true_and, and_true]
  all_goals simp

/-- A mask with zeros below bit `k` only keeps the bits from `k` up. -/
theorem and_highmask (w : CommandWord) (k : Nat) (hk : k ≤ 40) : (w &&& (BitVec.allOnes 40 <<< k)).toNat = w.toNat / 2^k * 2^k := by
  have h : w &&& (BitVec.allOnes 40 <<< k) = (w >>> k) <<< k := by
    ext i hi
    by_cases h : i < k
    · simp [h]
    · simp [h, show k + (i - k) = i by omega, hi]
      intro _
      exact BitVec.getElem_allOnes (v := 40) (i := i - k) (by omega)
      
  rw [h, BitVec.toNat_shiftLeft, BitVec.toNat_ushiftRight, Nat.shiftRight_eq_div_pow, Nat.shiftLeft_eq]
  apply Nat.mod_eq_of_lt
  have := w.isLt
  have := Nat.div_mul_le_self w.toNat (2^k)
  omega

/-- The match and mask test of each row of the opcode table, on the word's number (R63). -/
theorem opcodeRow_tests (w : CommandWord) : 
  ((w &&& 0xFE00000000#40 = 0x1000000000#40) ↔ w.toNat / 2^33 = 8) ∧
  ((w &&& 0xFFFFFFFFFF#40 = 0x2000000000#40) ↔ w.toNat = 2 * 2^36) ∧
  ((w &&& 0xFF00000000#40 = 0x3000000000#40) ↔ w.toNat / 2^32 = 48) ∧
  ((w &&& 0xFFFFFFFFFF#40 = 0x4000000000#40) ↔ w.toNat = 4 * 2^36) ∧
  ((w &&& 0xFFFFFFFE00#40 = 0x5000000000#40) ↔ w.toNat / 2^9 = 5 * 2^27) ∧
  ((w &&& 0xFFFFFFFC00#40 = 0x6000000000#40) ↔ w.toNat / 2^10 = 6 * 2^26) ∧
  ((w &&& 0xFFFFFFFFE0#40 = 0x7000000000#40) ↔ w.toNat / 2^5 = 7 * 2^31) ∧
  ((w &&& 0xFFFFFFFFFF#40 = 0x8000000000#40) ↔ w.toNat = 8 * 2^36) := by
  have a : ∀ (p mask : CommandWord) (k : Nat) (hk : k ≤ 40) (hm : mask = BitVec.allOnes 40 <<< k),
    (w &&& mask = p) ↔ w.toNat / 2^k * 2^k = p.toNat := by
    intro p mask k hk hm
    subst hm; rw [← BitVec.toNat_inj, and_highmask w k hk]
  refine ⟨(a _ _ 33 (by omega) (by decide)).trans ?_, (a _ _ 0 (by omega) (by decide)).trans ?_, (a _ _ 32 (by omega) (by decide)).trans ?_, (a _ _ 0 (by omega) (by decide)).trans ?_, (a _ _ 9 (by omega) (by decide)).trans ?_, (a _ _ 10 (by omega) (by decide)).trans ?_, (a _ _ 5 (by omega) (by decide)).trans ?_, (a _ _ 0 (by omega) (by decide)).trans ?_⟩ <;> simp only [BitVec.toNat_ofNat] <;> omega

end Sys2Proof
end

