-- ==== Sys2Proof/Laws/Memory.lean ====
section
/-! SUPPORT. Every operation on the payload buffer keeps its canonical form, and reading after an append. -/

namespace Sys2Proof.Machine

/-- The buffer after reset has the form. -/
theorem reset_memory_wf : Memory.wf State.reset.pbuf := by decide

/-- The cleared buffer of a sync match and of `RST` has the form (R89, R97). -/
theorem empty_memory_wf : Memory.wf [] := by decide

/-- An append keeps the form: it is refused outside the buffer (R33). -/
theorem append_wf {m m' : Memory} {v : Nibble} (h : Memory.append m v = some m') : Memory.wf m' := by
  obtain ⟨hc, rfl⟩ := Memory.append_eq_some.1 h
  simp only [Memory.wf, List.length_append, List.length_singleton]
  omega

/-- Compaction halves the number of nibbles (R92). -/
theorem compact_length (t : Taps) (l : List Nibble) : (compact t l).length = l.length / 2 := by
  induction l using compact.induct with
  | case1 a b r ih => simp [compact, ih]; omega
  | case2 l h => 
    match l, h with
    | [], _ => rfl
    | [a], _ => simp [compact]
    | a :: b :: r, h => exact absurd rfl (h a b r)

/-- Compaction keeps the form. -/
theorem compact_wf {t : Taps} {m : Memory} (h : Memory.wf m) : Memory.wf (compact t m) := by
  simp only [Memory.wf, compact_length] at h ⊢
  omega

/-- The completion check keeps the form (R91). -/
theorem completionCheck_wf {s : State} (h : Memory.wf s.pbuf) : Memory.wf (completionCheck s).pbuf := by
  unfold completionCheck
  split
  · split
    · exact compact_wf h
    · exact h
  · exact h

/-- A recovered bit keeps the form, whatever it does (R85). -/
theorem ingestBit_wf {b : Bool} {s t : State} (h : Memory.wf s.pbuf) (hi : ingestBit b s = some t) : Memory.wf t.pbuf := by
  unfold ingestBit at hi
  split at hi
  · cases hi; exact h
  · split at hi
    · unfold fillingStep at hi
      dsimp only at hi
      split at hi
      · cases hi; exact h
      · split at hi
        · cases hi; exact completionCheck_wf (append_wf ‹_›)
        · cases hi
    · cases hi
      unfold unsyncedStep
      dsimp only
      split
      · exact empty_memory_wf
      · exact h

/-- An append leaves every other address alone. -/
theorem getElem?_append_of_ne {m : Memory} {v : Nibble} {a : Nat} (h : a ≠ m.length) : (m ++ [v])[a]? = m[a]? := by
  rcases Nat.lt_trichotomy a m.length with h' | h' | h'
  · rw [List.getElem?_append_left h']
  · exact absurd h' h
  · rw [List.getElem?_eq_none (by simp; omega), List.getElem?_eq_none (by omega)]

/-- The address appended to reads the nibble appended. -/
theorem getElem?_append_self {m : Memory} {v : Nibble} : (m ++ [v])[m.length]? = some v := by simp

end Sys2Proof.Machine
end

