-- ==== Sys2Proof/Laws/PerInstr.lean ====
section
/-! SUPPORT. The per-instruction family: the word of a command is accepted by its own row of the opcode table. -/

namespace Sys2Proof.Laws.EncodeMatchesTable

/-- The word a well-formed command is encoded to passes the match, mask and count test of the row of its mnemonic (R63, R64). -/
def Statement (i : Instr) : Prop :=
  i.wellFormed = true → ∃ r ∈ opcodeTable, r.mnemonic = i.mnemonic ∧ r.accepts (encode i) = true

theorem edge (duration : Duration) (level : Bool) : Statement (.edge duration level) := by
  intro _
  have h := (opcodeRow_tests (encode (.edge duration level))).1
  have hd := duration.isLt
  have hl := level.toNat_le
  rw [encode_toNat] at h
  refine ⟨_, .head _, rfl, ?_⟩
  simp only [OpcodeRow.accepts, Bool.and_eq_true, decide_eq_true_eq]
  exact ⟨h.2 (by dsimp only; omega), rfl⟩

theorem rst : Statement .rst := fun _ => ⟨_, .tail _ (.head _), rfl, by decide⟩

theorem cls (duration : Duration) : Statement (.cls duration) := by
  intro _
  have h := (opcodeRow_tests (encode (.cls duration))).2.2.1
  have hd := duration.isLt
  rw [encode_toNat] at h
  refine ⟨_, .tail _ (.tail _ (.head _)), rfl, ?_⟩
  simp only [OpcodeRow.accepts, Bool.and_eq_true, decide_eq_true_eq]
  exact ⟨h.2 (by dsimp only; omega), rfl⟩

theorem cksum : Statement .cksum := fun _ => ⟨_, .tail _ (.tail _ (.tail _ (.head _))), rfl, by decide⟩

theorem duns (start : BitVec 5) (count : BitVec 4) : Statement (.duns start count) := by
  intro hw
  have h := (opcodeRow_tests (encode (.duns start count))).2.2.2.2.1
  have hs := start.isLt
  have hc := count.isLt
  have hk : countOf (encode (.duns start count)) = count := by
    apply BitVec.eq_of_toNat_eq; rw [countOf, wordField_toNat, encode_toNat]; dsimp only; omega
  rw [encode_toNat] at h
  refine ⟨_, .tail _ (.tail _ (.tail _ (.tail _ (.head _)))), rfl, ?_⟩
  simp only [OpcodeRow.accepts, hk, Bool.and_eq_true, decide_eq_true_eq]
  exact ⟨h.2 (by dsimp only; omega), by simpa [Instr.wellFormed] using hw⟩

theorem dbcd (start : BitVec 5) (count : BitVec 4) (neg : Bool) : Statement (.dbcd start count neg) := by
  intro hw
  have h := (opcodeRow_tests (encode (.dbcd start count neg))).2.2.2.2.2.1
  have hs := start.isLt
  have hc := count.isLt
  have hn := neg.toNat_le
  have hk : countOf (encode (.dbcd start count neg)) = count := by
    apply BitVec.eq_of_toNat_eq; rw [countOf, wordField_toNat, encode_toNat]; dsimp only; omega
  rw [encode_toNat] at h
  refine ⟨_, .tail _ (.tail _ (.tail _ (.tail _ (.tail _ (.head _))))), rfl, ?_⟩
  simp only [OpcodeRow.accepts, hk, Bool.and_eq_true, decide_eq_true_eq]
  exact ⟨h.2 (by dsimp only; omega), by simpa [Instr.wellFormed] using hw⟩

theorem rdnib (start : BitVec 5) : Statement (.rdnib start) := by
  intro _
  have h := (opcodeRow_tests (encode (.rdnib start))).2.2.2.2.2.2.1
  have hs := start.isLt
  rw [encode_toNat] at h
  refine ⟨_, .tail _ (.tail _ (.tail _ (.tail _ (.tail _ (.tail _ (.head _)))))), rfl, ?_⟩
  simp only [OpcodeRow.accepts, Bool.and_eq_true, decide_eq_true_eq]
  exact ⟨h.2 (by dsimp only; omega), rfl⟩

theorem decode : Statement .decode :=
  fun _ => ⟨_, .tail _ (.tail _ (.tail _ (.tail _ (.tail _ (.tail _ (.tail _ (.head _))))))), rfl, by decide⟩

end Sys2Proof.Laws.EncodeMatchesTable
end

