-- ==== Sys2Proof/Laws/Reads.lean ====
section
/-! SUPPORT. Nibble lists and checksums as sums, what the count check can do, what the layouts have in common. -/

namespace Sys2Proof.Machine

/-- Everything the count check can do (R67). -/
theorem withCount_next {s t : State} {count : BitVec 4} {k : Outcome} (h : withCount s count k = .next t) :
    (8 < count.toNat ∧ t = s.withResponse ⟨.illegal, 0#85⟩) ∨ (count.toNat ≤ 8 ∧ k = .next t) := by
  unfold withCount at h
  by_cases hc : count.toNat ≤ 8
  · right; exact ⟨hc, by simpa [countOk, hc] using h⟩
  · left; refine ⟨by omega, refuse_next.1 ?_⟩; simpa [countOk, hc] using h

/-- The value of a list from a running value. -/
theorem baseValue_foldl (b acc : Nat) (l : List Nibble) : l.foldl (fun acc n => b * acc + n.toNat) acc = acc * b ^ l.length + baseValue b l := by
  induction l generalizing acc with
  | nil => simp [baseValue]
  | cons n r ih => 
    simp only [List.foldl_cons, baseValue]
    rw [ih, ih (b * 0 + n.toNat)]; simp only [List.length_cons, pow_succ]; ring

/-- The first nibble is the most significant one (R45). -/
theorem baseValue_cons (b : Nat) (n : Nibble) (l : List Nibble) : baseValue b (n :: l) = n.toNat * b ^ l.length + baseValue b l := by
  rw [baseValue, List.foldl_cons, baseValue_foldl]; simp

/-- The value of a nibble list as a sum (R45). -/
theorem baseValue_sum (b : Nat) (l : List Nibble) : baseValue b l = ∑ k ∈ Finset.range l.length, (l.getD k 0#4).toNat * b ^ (l.length - 1 - k) := by
  induction l with
  | nil => rfl
  | cons n r ih =>
    rw [baseValue_cons, List.length_cons, Finset.sum_range_succ', ih, Nat.add_comm]
    congr 1
    · refine Finset.sum_congr rfl fun k _ => ?_
      rw [List.getD_cons_succ, show r.length + 1 - 1 - (k+1) = r.length - 1 - k by omega]

/-- A list of proper digits is below the power of its length. -/
theorem baseValue_lt (b : Nat) (l : List Nibble) (hb : ∀ n ∈ l, n.toNat < b) : baseValue b l < b ^ l.length := by
  induction l with
  | nil => simp [baseValue]
  | cons n r ih =>
    rw [baseValue_cons, List.length_cons, pow_succ]
    have h1 := ih fun m hm => hb m (List.mem_cons_of_mem _ hm)
    have h2 := hb n List.mem_cons_self
    calc n.toNat * b ^ r.length + baseValue b r < n.toNat * b ^ r.length + b ^ r.length := by omega
      _ = (n.toNat + 1) * b ^ r.length := by ring
      _ ≤ b * b ^ r.length := Nat.mul_le_mul_right _ h2
      _ = _ := by ring

/-- The sum of a list by index. -/
theorem nibbleSum_sum (l : List Nibble) : nibbleSum l = ∑ i ∈ Finset.range l.length, (l.getD i 0#4).toNat := by
  induction l with
  | nil => rfl
  | cons n r ih => rw [List.length_cons, Finset.sum_range_succ']; simp [nibbleSum] at ih ⊢; rw [ih]; omega

/-- The byte sum of a list by index of the pair (R103). -/
theorem byteSum_sum (m : Nat) : ∀ l : List Nibble, l.length / 2 = m → byteSum l = ∑ j ∈ Finset.range m, (16 * (l.getD (2*j) 0#4).toNat + (l.getD (2*j+1) 0#4).toNat) := by
  induction m with
  | zero => intro l h
            match l, h with
            | [], _ => rfl
            | [_], _ => simp [byteSum]
            | _::_::_, h => simp at h
  | succ m ih =>
    intro l h
    match l, h with
    | [], h => simp at h
    | [_], h => simp at h
    | a::b::r, h =>
      rw [Finset.sum_range_succ', byteSum, ih r (by simp only [List.length_cons] at h; omega)]
      simp [Nat.mul_add]; omega

/-- The number of nibbles a field inside the payload has. -/
theorem field_length {s : State} {a n} (h : a + n ≤ s.ppos) : ((s.pbuf.drop a).take n).length = n := by
  simp only [State.ppos] at h; simp; omega

/-- A value that fits its width keeps it on the data bus (R62). -/
theorem toData_ofNat (n v : Nat) (h : v < 2 ^ n) (hn : n ≤ 85) : toData (BitVec.ofNat n v) = BitVec.ofNat 85 v := by
  apply BitVec.eq_of_toNat_eq
  have : 2 ^ n ≤ 2 ^ 85 := Nat.pow_le_pow_right (by omega) hn
  simp only [toData, BitVec.toNat_setWidth, BitVec.toNat_ofNat, Nat.mod_eq_of_lt h]

/-- A 32-bit two's complement result on the data bus (R110). -/
theorem toData_ofInt (v : ℤ) : toData (BitVec.ofInt 32 v) = BitVec.ofNat 85 (v % 2^32).toNat := by
  apply BitVec.eq_of_toNat_eq
  simp only [toData, BitVec.toNat_setWidth, BitVec.toNat_ofInt, BitVec.toNat_ofNat]; rfl

/-- The three fields every layout computes alike (R117). -/
theorem readingOf_common (c : LaneConfig) (p : List Nibble) (free : Nibble) :
    (readingOf c p free).checksum = embeddedChecksum c p ∧ (readingOf c p free).calculatedChecksum = checksum c p ∧
    (readingOf c p free).protocolVersion = c.variant.code := by
  unfold readingOf
  cases hv : c.variant <;> simp [layoutV1, layoutV2, layoutV3, layoutV2V3, hv]

end Sys2Proof.Machine
end

