-- ==== Sys2Proof/Laws/Synchronizer.lean ====
section
/-! SUPPORT. What a recovered bit, EDGE and RST can do; the shift register and compaction as numbers. -/

namespace Sys2Proof.Machine

/-- The shift of R87 as a number: `(2·SR + b) mod 2^SYNCLEN`. -/
theorem shiftIn_toNat {n : Nat} (hn : n ≤ 64) (sr : BitVec 64) (b : Bool) :
    (shiftIn n sr b).toNat = (2 * sr.toNat + b.toNat) % 2 ^ n := by
  have hp : 2^n ≤ 2^64 := Nat.pow_le_pow_right (by omega) hn
  have hpos : 0 < 2^n := Nat.pos_of_ne_zero (by positivity)
  simp only [shiftIn, mask64, BitVec.toNat_and, BitVec.toNat_or, BitVec.toNat_shiftLeft, BitVec.toNat_ofNat, BitVec.toNat_setWidth, BitVec.toNat_ofBool]
  rw [Nat.mod_eq_of_lt (a := 2^n-1) (by omega), Nat.and_two_pow_sub_one_eq_mod]
  have hb : b.toNat % 2^64 = b.toNat := by cases b <;> rfl
  rw [hb]
  apply Nat.eq_of_testBit_eq
  intro i
  have e : 2 * sr.toNat + b.toNat = sr.toNat <<< 1 ||| b.toNat := by
    rw [← Nat.shiftLeft_add_eq_or_of_lt (by cases b <;> decide), Nat.shiftLeft_eq]; omega
  rw [e]
  simp only [Nat.testBit_mod_two_pow, Nat.testBit_or]
  by_cases hi : i < n
  · simp [hi, show i < 64 by omega]
  · simp [hi]

/-- The assembled nibble as a number, while the bits at `NIBPOS` and above are still 0 (R90). -/
theorem assemble_toNat {nib : BitVec 4} {p : BitVec 2} {b : Bool} (h : nib.toNat < 2 ^ p.toNat) :
    assemble nib p b = BitVec.ofNat 4 (nib.toNat + b.toNat * 2 ^ p.toNat) := by
  revert h; revert nib p b; decide

/-- The `EDGE` response data of a recovered bit as a number (R94). -/
theorem edgeData_some (b : Bool) : edgeData (some b) = BitVec.ofNat 85 (2 + b.toNat) := by
  cases b <;> decide

/-- A logical nibble as a number: bit `k` is bit `CTAP[k]` of the raw byte (R92). -/
theorem pick_toNat (t : Taps) (x : BitVec 8) : (pickBits t x).toNat = (x.getLsbD t.tap0.toNat).toNat + 2 * (x.getLsbD t.tap1.toNat).toNat + 4 * (x.getLsbD t.tap2.toNat).toNat + 8 * (x.getLsbD t.tap3.toNat).toNat := by
  simp only [pickBits, append_toNat, BitVec.toNat_ofBool]; omega

/-- Logical nibble `i` comes from the raw pair `2i`, `2i + 1` (R92). -/
theorem compact_getElem? (t : Taps) (l : List Nibble) (n : Nat) (hl : l.length = 2 * n) (i : Nat) (hi : i < n) :
    (compact t l)[i]? = some (pickBits t (l.getD (2*i) 0#4 ++ l.getD (2*i+1) 0#4)) := by
  induction n generalizing l i with
  | zero => omega
  | succ n ih =>
    match l, hl with
    | a :: b :: r, hl =>
      simp only [List.length_cons] at hl
      cases i with
      | zero => simp [compact]
      | succ i => 
        have := ih r (by omega) i (by omega)
        simp only [compact, List.getElem?_cons_succ, this]
        rw [show 2 * (i+1) = 2 * i + 1 + 1 by omega]; simp
    | [], hl => simp at hl; 
    | [a], hl => simp at hl; omega

/-- The two things the Unsynced step can do (R87). -/
theorem unsyncedStep_cases (b : Bool) (s : State) :
    (shiftIn s.cfg.synclen s.sr b = s.cfg.syncpat ∧ unsyncedStep b s = (s.withSr s.cfg.syncpat).startFill) ∨
    (shiftIn s.cfg.synclen s.sr b ≠ s.cfg.syncpat ∧ unsyncedStep b s = s.withSr (shiftIn s.cfg.synclen s.sr b)) := by
  by_cases h : shiftIn s.cfg.synclen s.sr b = s.cfg.syncpat
  · left; refine ⟨h, ?_⟩; simp [unsyncedStep, h]
  · right; refine ⟨h, ?_⟩; simp [unsyncedStep, h]

/-- The three things the completion check can do (R91). -/
theorem completionCheck_cases (s : State) :
    (s.ppos ≠ s.cfg.fillTarget ∧ completionCheck s = s) ∨
    (s.ppos = s.cfg.fillTarget ∧ s.cfg.dbl = false ∧ completionCheck s = s.markReady) ∨
    (s.ppos = s.cfg.fillTarget ∧ s.cfg.dbl = true ∧
      completionCheck s = (s.withPbuf (compact s.cfg.ctap s.pbuf)).markReady) := by
  unfold completionCheck
  cases h : s.cfg.dbl <;> by_cases h' : s.ppos = s.cfg.fillTarget <;> simp [h']

/-- Everything the Filling step can do when it answers (R90). -/
theorem fillingStep_some {b : Bool} {s t : State} (h : fillingStep b s = some t) :
    (s.nibpos.toNat < 3 ∧ t = s.withNibble (assemble s.nib s.nibpos b) (s.nibpos + 1#2)) ∨
    (s.nibpos = 3#2 ∧ s.ppos < capacity ∧
      t = completionCheck ((s.withPbuf (s.pbuf ++ [assemble s.nib s.nibpos b])).withNibble 0#4 0#2)) := by
  unfold fillingStep at h
  by_cases hn : s.nibpos.toNat < 3
  · left; simp only [hn, if_true] at h; exact ⟨hn, by simpa using h.symm⟩
  · right
    simp only [hn, if_false] at h
    split at h
    · obtain ⟨hc, rfl⟩ := Memory.append_eq_some.1 ‹_›
      refine ⟨by bv_omega, hc, by simpa using h.symm⟩
    · cases h

/-- The Filling step stops only where the append would leave the buffer. -/
theorem fillingStep_answers {b : Bool} {s : State} (h : s.ppos < capacity) : ∃ t, fillingStep b s = some t := by
  unfold fillingStep
  have ha : Memory.append s.pbuf (assemble s.nib s.nibpos b) = some (s.pbuf ++ [assemble s.nib s.nibpos b]) :=
    Memory.append_eq_some.2 ⟨h, rfl⟩
  split
  · exact ⟨_, rfl⟩
  · simp [ha]

/-- Everything a recovered bit can do when it is ingested (R85). -/
theorem ingestBit_some {b : Bool} {s t : State} (h : ingestBit b s = some t) :
    (s.hasPayload = true ∧ t = s) ∨
    (s.hasPayload = false ∧ s.synced = true ∧ fillingStep b s = some t) ∨
    (s.hasPayload = false ∧ s.synced = false ∧ t = unsyncedStep b s) := by
  unfold ingestBit at h
  cases hp : s.hasPayload <;> cases hs : s.synced <;> simp_all

/-- Everything `EDGE` can do when it answers a next state (R85). -/
theorem execEdge_next {d : Duration} {l : Bool} {s t : State} (h : execEdge d l s = .next t) :
    s.cfg.legal = true ∧
    (((classify s.cfg d = .invalid ∨ (s.phase = .ash ∧ classify s.cfg d = .half)) ∧
        t = (s.withPhase .ac).withResponse ⟨.ok, edgeData none⟩) ∨
     ((classify s.cfg d ≠ .invalid ∧ (s.phase = .ac ∨ classify s.cfg d = .full)) ∧
        ∃ u, ingestBit (!l) (s.withPhase .ash) = some u ∧ t = u.withResponse ⟨.ok, edgeData (some (!l))⟩)) := by
  obtain ⟨hl, h⟩ := onLane_next.1 h
  refine ⟨hl, ?_⟩
  rcases recoverBit_cases s.cfg s.phase d l with ⟨hc, hr⟩ | ⟨hc, hr⟩
  · rw [hr] at h; exact .inl ⟨hc, respond_next.1 h⟩
  · rw [hr] at h
    dsimp only at h
    split at h
    · exact .inr ⟨hc, _, ‹_›, respond_next.1 h⟩
    · cases h

/-- The Filling step before the fourth bit (R90). -/
theorem fillingStep_early {b : Bool} {s : State} (h : s.nibpos.toNat < 3) :
   fillingStep b s = some (s.withNibble (assemble s.nib s.nibpos b) (s.nibpos + 1#2)) := by simp [fillingStep, h]

/-- The Filling step on the fourth bit, inside the buffer (R90). -/
theorem fillingStep_fourth {b : Bool} {s : State} (h : s.nibpos = 3#2) (hc : s.ppos < capacity) :
   fillingStep b s = some (completionCheck ((s.withPbuf (s.pbuf ++ [assemble s.nib s.nibpos b])).withNibble 0#4 0#2)) := by
  have ha : Memory.append s.pbuf (assemble s.nib s.nibpos b) = some (s.pbuf ++ [assemble s.nib s.nibpos b]) :=
    Memory.append_eq_some.2 ⟨hc, rfl⟩
  simp [fillingStep, h] at ha ⊢; simp [ha]

/-- In the Filling state a recovered bit goes to the nibble assembler (R85). -/
theorem ingestBit_filling {s : State} {b : Bool} (hp : s.hasPayload = false) (hs : s.synced = true) :
    ingestBit b s = fillingStep b s := by simp [ingestBit, hp, hs]

/-- An edge that yields a bit which is ingested (R85). -/
theorem execEdge_ingested {d : Duration} {l : Bool} {s u : State} (hl : s.cfg.legal = true)
    (h : classify s.cfg d ≠ .invalid ∧ (s.phase = .ac ∨ classify s.cfg d = .full))
    (hu : ingestBit (!l) (s.withPhase .ash) = some u) :
    execEdge d l s = .next (u.withResponse ⟨.ok, edgeData (some (!l))⟩) := by
  simp [execEdge, hl, recoverBit_some h, hu, respond]

/-- Everything `RST` can do (R97). -/
theorem execRst_next {s t : State} (h : execRst s = .next t) :
    s.cfg.legal = true ∧ t = s.clearRuntime.withResponse ⟨.ok, 0#85⟩ := by
  obtain ⟨hl, h⟩ := onLane_next.1 h; exact ⟨hl, respond_next.1 h⟩

end Sys2Proof.Machine
end

