-- ==== Sys2Proof/Tests/Slice0.lean ====
section
/-! SUPPORT. Tests: well-formedness, decoding of words written bit by bit, one-step vectors of spec/95_test_vectors.md, and a
witness for the hypotheses of every statement that has any. -/

namespace Sys2Proof.Tests

open Sys2Proof Sys2Proof.Machine

/-! ### Lanes the tests use -/

/-- A lane in Payload Ready (AwaitingSecondHalf, as a fill leaves it). -/
def ready (c : LaneConfig) (p : List Nibble) : State :=
  { State.resetWith c with phase := .ash, synced := true, hasPayload := true, sr := c.syncpat, pbuf := p }

/-- A lane in Filling. -/
def filling (c : LaneConfig) (p : List Nibble) (nib : BitVec 4) (nibpos : BitVec 2) : State :=
  { State.resetWith c with phase := .ash, synced := true, sr := c.syncpat, pbuf := p, nib := nib, nibpos := nibpos }

/-- The small double-rate lane of program P2: `FULL = 1000`, `SYNCPAT = 0x5`, `PAYLEN = 2`. -/
def tinyDouble : LaneConfig := { presetV2 with full := 1000#32, syncpat := 0x5#64, paylen := 2#5 }

/-- A single-rate lane with `PAYLEN = 2`. -/
def tinySingle : LaneConfig := { tinyDouble with dbl := false }

/-- The payload of program P1. -/
def payloadV1 : List Nibble := [5#4, 6#4, 2#4, 3#4, 4#4, 8#4, 12#4, 1#4]

/-- The payload of program P4. -/
def payloadV2 : List Nibble := [14#4, 12#4, 4#4, 0#4, 4#4, 7#4, 11#4, 0#4, 2#4, 1#4, 5#4, 0#4, 3#4, 12#4]

/-- The payload of program P3. -/
def payloadV3 : List Nibble :=
  [1#4, 13#4, 2#4, 0#4, 2#4, 10#4, 3#4, 4#4, 0#4, 5#4, 7#4, 8#4, 4#4, 5#4, 0#4, 4#4, 0#4]

/-- The v2 payload whose nibble 4 is 0 (section 2.9). -/
def payloadFree : List Nibble := [1#4, 2#4, 3#4, 4#4, 0#4, 0#4, 1#4, 0#4, 2#4, 0#4, 0#4, 0#4, 0#4, 13#4]

/-- The response of an outcome. -/
def respOf : Outcome → Option Response
  | .next t => some t.resp
  | .fault _ => none
  | .refused _ => none

/-- The state of an outcome, its response put back to the one after reset. -/
def laneOf : Outcome → Option State
  | .next t => some (t.withResponse ⟨.ok, 0#85⟩)
  | .fault _ => none
  | .refused _ => none

/-! ### Well-formedness (R67): the check refuses an ill-formed term and passes its boundary -/

theorem test_duns_count_nine_refused : (Instr.duns 0#5 9#4).wellFormed = false := by decide
theorem test_duns_count_eight_passes : (Instr.duns 0#5 8#4).wellFormed = true := by decide
theorem test_dbcd_count_nine_refused : (Instr.dbcd 0#5 9#4 true).wellFormed = false := by decide
theorem test_dbcd_count_eight_passes : (Instr.dbcd 0#5 8#4 true).wellFormed = true := by decide

/-! ### Decoding of words written out from the patterns of R64 -/

theorem test_decode_edge :
    decode 0b0001000100000000000000000000000111101000#40 = .ok (.edge 488#32 true) := rfl
theorem test_decode_rst :
    decode 0b0010000000000000000000000000000000000000#40 = .ok (.rst) := rfl
theorem test_decode_cls :
    decode 0b0011000000000000000000000000001011011100#40 = .ok (.cls 732#32) := rfl
theorem test_decode_cksum :
    decode 0b0100000000000000000000000000000000000000#40 = .ok (.cksum) := rfl
theorem test_decode_duns :
    decode 0b0101000000000000000000000000000100011111#40 = .ok (.duns 31#5 8#4) := rfl
theorem test_decode_dbcd :
    decode 0b0110000000000000000000000000001001101000#40 = .ok (.dbcd 8#5 3#4 true) := rfl
theorem test_decode_rdnib :
    decode 0b0111000000000000000000000000000000010000#40 = .ok (.rdnib 16#5) := rfl
theorem test_decode_decode :
    decode 0b1000000000000000000000000000000000000000#40 = .ok (.decode) := rfl

/-- Illegal words of section 2.1, one or more for each reason. -/
theorem test_decode_illegal_words :
    [0x0000000001#40, 0x9000000000#40, 0xFFFFFFFFFF#40, 0x1200000000#40, 0x1800000000#40, 0x2000000001#40, 0x3100000000#40,
      0x4000000010#40, 0x5000000200#40, 0x5000000120#40, 0x50000001E0#40, 0x6000000320#40, 0x6000000400#40, 0x7000000020#40,
      0x7100000000#40, 0x8000000100#40].all (fun w => (decodeTableWord 40 w.toNat).isNone) = true := by decide

/-- The host's two questions on one word: what the decoder reads, and what the first step after reset runs. -/
theorem test_fetch_word :
    decodeTableWord 40 0x3000000B6B = some (.cls 2923#32) ∧
    respOf (step (State.reset.withFetchWord 40 0x3000000B6B)) = some ⟨.ok, 2#85⟩ := by decide

/-! ### One step of each command -/

/-- Program P2, command 7: the sync matches. -/
theorem test_edge_sync_match :
    laneOf (exec (.edge 1249#32 false) { State.resetWith tinyDouble with phase := .ash, sr := 0x2#64 }) =
      some (filling tinyDouble [] 0#4 0#2) := by decide

/-- Program P2, command 28: the fill completes and is compacted. -/
theorem test_edge_completes_double_rate :
    laneOf (exec (.edge 900#32 true) (filling tinyDouble [6#4, 9#4, 9#4] 6#4 3#2)) =
      some { ready tinyDouble [9#4, 6#4] with draw := 1 } := by decide

/-- Section 2.11. -/
theorem test_rst_from_ready : laneOf (exec .rst (ready presetV3 payloadV3)) = some (State.resetWith presetV3) := by decide

/-- R77: 731 is `Half` and 732 is `Invalid` under `FULL = 976`. -/
theorem test_cls_band_edge :
    respOf (exec (.cls 731#32) (State.resetWith presetV3)) = some ⟨.ok, 1#85⟩ ∧
    respOf (exec (.cls 732#32) (State.resetWith presetV3)) = some ⟨.ok, 0#85⟩ := by decide

/-- Section 2.7, rows 1 and 9. -/
theorem test_cksum_sumb_sumn :
    respOf (exec .cksum (ready presetV1 payloadV1)) = some ⟨.ok, 0xC1#85⟩ ∧
    respOf (exec .cksum (ready presetV3 payloadV3)) = some ⟨.ok, 0x40#85⟩ := by decide

/-- Section 2.7, row 1: `SUMA`. -/
theorem test_cksum_suma : respOf (exec .cksum (ready { presetV1 with cksel := .suma } payloadV1)) = some ⟨.ok, 0x23#85⟩ := by decide

/-- Section 2.8. -/
theorem test_duns_last_field :
    respOf (exec (.duns 9#5 8#4) (ready presetV3 payloadV3)) = some ⟨.ok, 0x57845040#85⟩ ∧
    respOf (exec (.duns 10#5 8#4) (ready presetV3 payloadV3)) = some ⟨.range, 0#85⟩ := by decide

/-- Section 2.8: the range ends at `PAYLEN` even for an empty field. -/
theorem test_duns_empty_field :
    respOf (exec (.duns 17#5 0#4) (ready presetV3 payloadV3)) = some ⟨.ok, 0#85⟩ ∧
    respOf (exec (.duns 18#5 0#4) (ready presetV3 payloadV3)) = some ⟨.range, 0#85⟩ := by decide

/-- Section 2.8: two's complement in 32 bits, and a digit above 9. -/
theorem test_dbcd_negative :
    respOf (exec (.dbcd 8#5 3#4 true) (ready presetV3 payloadV3)) = some ⟨.ok, 0xFFFFFFC7#85⟩ ∧
    respOf (exec (.dbcd 0#5 3#4 false) (ready presetV3 payloadV3)) = some ⟨.ok, 0xE8#85⟩ := by decide

/-- Section 2.8. -/
theorem test_rdnib_last :
    respOf (exec (.rdnib 1#5) (ready presetV3 payloadV3)) = some ⟨.ok, 0xD#85⟩ ∧
    respOf (exec (.rdnib 17#5) (ready presetV3 payloadV3)) = some ⟨.range, 0#85⟩ := by decide

/-- Section 2.9, the first v1 row and the first v2 row. -/
theorem test_decode_v1_v2 :
    respOf (exec .decode (ready presetV1 payloadV1)) = some ⟨.ok, 0x034403A800001707040001#85⟩ ∧
    respOf (exec .decode (ready presetV2 payloadV2)) = some ⟨.ok, 0x0400035C0001ECF0F3B102#85⟩ := by decide

/-- Section 2.9, the first v3 row with one and with two humidity digits. -/
theorem test_decode_v3 :
    respOf (exec .decode (ready presetV3 payloadV3)) = some ⟨.ok, 0x0427FF1C00A28D01007403#85⟩ ∧
    respOf (exec .decode (ready { presetV3 with humpl := .two } payloadV3)) = some ⟨.ok, 0x0427FF1C070A8D01007403#85⟩ := by decide

/-- The assembler text of section 2.1's operands, and `EMBCK` of preset V3 (section 2.8). -/
theorem test_assembler :
    assemblerLine (.dbcd 8#5 3#4 true) = "DBCD 8, 3, 1" ∧ readEmbedded presetV3 = .duns 15#5 2#4 ∧
    halfPulse presetV1 true = .edge 1461#32 true ∧ fullPulse presetV1 false = .edge 2923#32 false ∧ badPulse true = .edge 0#32 true := by
  decide

/-! ### States that keep the invariants -/

theorem inv_unsynced : Inv (State.resetWith presetV1) :=
  ⟨by decide, by decide, by decide, by decide, by decide, by decide, by decide, by decide, by decide⟩

theorem inv_filling : Inv (filling tinySingle [] 0#4 0#2) :=
  ⟨by decide, by decide, by decide, by decide, by decide, by decide, by decide, by decide, by decide⟩

theorem inv_filling_late : Inv (filling tinyDouble [6#4, 9#4, 9#4] 7#4 3#2) :=
  ⟨by decide, by decide, by decide, by decide, by decide, by decide, by decide, by decide, by decide⟩

theorem inv_ready : Inv (ready presetV3 payloadV3) :=
  ⟨by decide, by decide, by decide, by decide, by decide, by decide, by decide, by decide, by decide⟩

/-! ### Witnesses: for each statement with hypotheses, a state and operands that meet them -/

theorem witness_StepRunsDecodedCommand :
    (State.reset.present 0x2000000000#40).port = 0x2000000000#40 :: [] ∧ decode 0x2000000000#40 = .ok .rst := ⟨rfl, rfl⟩

theorem witness_StepIdlesWithoutWord : State.reset.port = [] := rfl

/-- Opcodes 0, 9 and 15, with every other bit set. -/
theorem witness_ReservedOpcodeAnswersIllegal :
    State.reset.cfg.legal = true ∧
    ∀ w ∈ [0x0FFFFFFFFF#40, 0x9000000000#40, 0xFFFFFFFFFF#40],
      (State.reset.present w).port = w :: [] ∧ (w.toNat / 2 ^ 36 = 0 ∨ 9 ≤ w.toNat / 2 ^ 36) :=
  ⟨by decide, by simp [State.present, State.withPort, State.reset, State.resetWith]⟩

/-- For each row the lowest bit of its reserved field. -/
theorem witness_NonzeroReservedFieldAnswersIllegal :
    State.reset.cfg.legal = true ∧
    ∀ q ∈ [0x1200000000#40, 0x2000000001#40, 0x3100000000#40, 0x4000000001#40, 0x5000000200#40, 0x6000000400#40,
        0x7000000020#40, 0x8000000001#40].zip opcodeTable,
      (State.reset.present q.1).port = q.1 :: [] ∧ q.2 ∈ opcodeTable ∧ q.1.toNat / 2 ^ 36 = q.2.pattern.toNat / 2 ^ 36 ∧
      q.1 &&& q.2.mask ≠ q.2.pattern := by decide

/-- `count` 9 and 15 of both format F commands. -/
theorem witness_ReservedCountAnswersIllegal :
    State.reset.cfg.legal = true ∧
    ∀ w ∈ [0x5000000120#40, 0x50000001E0#40, 0x6000000120#40, 0x60000001E0#40],
      (State.reset.present w).port = w :: [] ∧ (w.toNat / 2 ^ 36 = 5 ∨ w.toNat / 2 ^ 36 = 6) ∧ 9 ≤ w.toNat / 2 ^ 5 % 16 :=
  ⟨by decide, by simp [State.present, State.withPort, State.reset, State.resetWith]⟩

theorem witness_DecodeEncodeRoundTrip :
    (Instr.duns 31#5 8#4).wellFormed = true ∧ (Instr.edge 0xFFFFFFFF#32 true).wellFormed = true := by decide

theorem witness_DecodedWordIsEncoding : decode 0x600000031F#40 = .ok (.dbcd 31#5 8#4 true) := rfl

theorem witness_DecodeAgreesWithOpcodeTable :
    decode 0x500000011F#40 = .ok (.duns 31#5 8#4) ∧ opcodeTable ≠ [] := ⟨rfl, by decide⟩

theorem witness_ClsAnswersTheBand : (State.resetWith presetV1).cfg.legal = true := by decide

/-- Each premise of the corner cases at its boundary. -/
theorem witness_ClassifyCornerCases :
    1 ≤ LaneConfig.half { presetV1 with full := 2#32 } ∧ 1 ≤ ({ presetV1 with full := 1#32 } : LaneConfig).full.toNat ∧
    ({ presetV1 with full := 0#32 } : LaneConfig).full = 0#32 ∧ ({ presetV1 with full := 1#32 } : LaneConfig).full = 1#32 ∧
    5 * presetV3.full.toNat ≤ 4 * (1220#32).toNat := by decide

/-- An `Invalid` pulse between the bands, and a `Half` pulse at the top of its band in AwaitingSecondHalf. -/
theorem witness_RejectedEdgeChangesPhaseOnly :
    (ready presetV3 payloadV3).cfg.legal = true ∧ classify (ready presetV3 payloadV3).cfg 732#32 = .invalid ∧
    ((ready presetV3 payloadV3).phase = .ash ∧ classify (ready presetV3 payloadV3).cfg 731#32 = .half) := by decide

/-- A bit that matches (program P2, command 7) and one that does not (command 6). -/
theorem witness_UnsyncedEdgeShiftsAndMatches :
    ∀ q ∈ [({ State.resetWith tinyDouble with phase := .ash, sr := 0x2#64 }, 1249#32),
        ({ State.resetWith tinyDouble with phase := .ash, sr := 0x1#64 }, 751#32)],
      q.1.cfg.legal = true ∧ YieldsBit q.1 q.2 ∧ q.1.hasPayload = false ∧ q.1.synced = false := by decide

theorem witness_UnsyncedEdge_both_branches :
    nextWindow { State.resetWith tinyDouble with phase := .ash, sr := 0x2#64 } true = tinyDouble.syncpat.toNat ∧
    nextWindow { State.resetWith tinyDouble with phase := .ash, sr := 0x1#64 } false ≠ tinyDouble.syncpat.toNat := by decide

/-- The first and the third bit of a nibble. -/
theorem witness_FillingEdgeAssemblesBit :
    ∀ s ∈ [filling presetV1 [] 0#4 0#2, filling presetV1 [] 3#4 2#2],
      s.cfg.legal = true ∧ YieldsBit s 2923#32 ∧ s.hasPayload = false ∧ s.synced = true ∧ s.nibpos.toNat < 3 ∧
      s.nib.toNat < 2 ^ s.nibpos.toNat := by decide

/-- The first nibble of a lane of 28 and the last but one. -/
theorem witness_FillingEdgeAppendsNibble :
    ∀ s ∈ [filling presetV2 [] 7#4 3#2, filling presetV2 (List.replicate 26 15#4) 7#4 3#2],
      s.cfg.legal = true ∧ YieldsBit s 976#32 ∧ s.hasPayload = false ∧ s.synced = true ∧ s.nibpos = 3#2 ∧ s.nib.toNat < 8 ∧
      s.ppos < 28 ∧ s.ppos + 1 ≠ s.cfg.fillTarget := by decide

theorem witness_SingleRateFillCompletes :
    let s := filling tinySingle [9#4] 7#4 3#2
    s.cfg.legal = true ∧ YieldsBit s 1000#32 ∧ s.hasPayload = false ∧ s.synced = true ∧ s.nibpos = 3#2 ∧ s.nib.toNat < 8 ∧
    s.cfg.dbl = false ∧ s.ppos + 1 = s.cfg.len := by decide

theorem witness_DoubleRateFillCompacts :
    let s := filling tinyDouble [6#4, 9#4, 9#4] 6#4 3#2
    s.cfg.legal = true ∧ YieldsBit s 900#32 ∧ s.hasPayload = false ∧ s.synced = true ∧ s.nibpos = 3#2 ∧ s.nib.toNat < 8 ∧
    s.cfg.dbl = true ∧ s.ppos + 1 = 2 * s.cfg.len := by decide

theorem witness_ReferenceTapsKeepSecondNibble : ([6#4, 9#4, 9#4, 6#4] : List Nibble).length = 2 * 2 := by decide

theorem witness_ReadyEdgeMovesPhaseOnly :
    (ready presetV1 payloadV1).cfg.legal = true ∧ (ready presetV1 payloadV1).hasPayload = true := by decide

theorem witness_EdgeAlwaysAnswersOk : Inv (filling tinyDouble [6#4, 9#4, 9#4] 7#4 3#2) := inv_filling_late

/-- A rejected edge, an edge while ready, and one while unsynced that matches nothing. -/
theorem witness_EdgeFrame_rejected_and_ready :
    (∃ t, exec (.edge 0#32 true) (ready presetV1 payloadV1) = .next t ∧ ¬ YieldsBit (ready presetV1 payloadV1) 0#32) ∧
    (∃ t, exec (.edge 2923#32 true) (ready presetV1 payloadV1) = .next t ∧ (ready presetV1 payloadV1).hasPayload = true) ∧
    (∃ t, exec (.edge 2923#32 true) (State.resetWith presetV1) = .next t ∧ (State.resetWith presetV1).synced = false ∧
      t.synced = false) :=
  ⟨⟨_, rfl, by decide⟩, ⟨_, rfl, by decide⟩, ⟨_, rfl, by decide, rfl⟩⟩

/-- A filling edge inside a nibble, and one that appends without completing. -/
theorem witness_EdgeFrame_filling :
    (∃ t, exec (.edge 1000#32 true) (filling tinyDouble [9#4] 3#4 2#2) = .next t ∧
      (filling tinyDouble [9#4] 3#4 2#2).synced = true ∧ (filling tinyDouble [9#4] 3#4 2#2).nibpos ≠ 3#2) ∧
    (∃ t, exec (.edge 1000#32 true) (filling tinyDouble [9#4] 3#4 3#2) = .next t ∧ t.hasPayload = false) ∧
    (∃ t, exec (.edge 1000#32 true) (filling tinySingle [9#4] 3#4 3#2) = .next t ∧ tinySingle.dbl = false) :=
  ⟨⟨_, rfl, by decide, by decide⟩, ⟨_, rfl, rfl⟩, ⟨_, rfl, rfl⟩⟩

/-- The first nibble, and the last but one of the largest buffer. -/
theorem witness_NibbleFillsLeastSignificantFirst :
    ∀ s ∈ [filling presetV1 [] 0#4 0#2, filling presetV2 (List.replicate 26 15#4) 0#4 0#2],
      s.hasPayload = false ∧ s.synced = true ∧ s.nib = 0#4 ∧ s.nibpos = 0#2 ∧ s.ppos < 28 ∧ s.ppos + 1 ≠ s.cfg.fillTarget := by
  decide

/-- One bit short of a fill, and exactly a fill. -/
theorem witness_FillTakesFourBitsPerNibble :
    Inv (filling tinySingle [] 0#4 0#2) ∧ (filling tinySingle [] 0#4 0#2).hasPayload = false ∧
    (filling tinySingle [] 0#4 0#2).synced = true ∧ (filling tinySingle [] 0#4 0#2).pbuf = [] ∧
    (filling tinySingle [] 0#4 0#2).nibpos = 0#2 ∧ (List.replicate 7 true).length < 4 * tinySingle.fillTarget ∧
    (List.replicate 8 true).length = 4 * tinySingle.fillTarget :=
  ⟨inv_filling, rfl, rfl, rfl, rfl, by decide, by decide⟩

theorem witness_SingleRateFillStoresBitStream :
    Inv (filling tinySingle [] 0#4 0#2) ∧ (filling tinySingle [] 0#4 0#2).hasPayload = false ∧
    (filling tinySingle [] 0#4 0#2).synced = true ∧ (filling tinySingle [] 0#4 0#2).pbuf = [] ∧
    (filling tinySingle [] 0#4 0#2).nibpos = 0#2 ∧ tinySingle.dbl = false ∧
    [true, false, false, true, false, true, true, false].length = 4 * tinySingle.len :=
  ⟨inv_filling, rfl, rfl, rfl, rfl, rfl, by decide⟩

theorem witness_ShiftRegisterHoldsRecentBits : 64 ≤ 64 ∧ presetV1.synclen ≤ 64 := by decide

theorem witness_SyncFiresOnThePatternNotBefore :
    presetV1.legal = true ∧ (List.replicate 11 true).length < presetV1.synclen := by decide

theorem witness_RstRestoresResetState : (ready presetV3 payloadV3).cfg.legal = true := by decide

theorem witness_ResetValuesAreTheSpecs : (filling presetV3 [] 5#4 3#2).cfg.legal = true := by decide

theorem witness_ReadsWithoutPayloadNotReady :
    (State.resetWith presetV3).cfg.legal = true ∧ (State.resetWith presetV3).hasPayload = false ∧
    ∀ i ∈ [Instr.cksum, .duns 0#5 8#4, .dbcd 8#5 3#4 false, .rdnib 0#5, .decode], isReadCommand i = true ∧ i.wellFormed = true := by
  decide

/-- The first index past the payload, a field one nibble too long, and the longest payload too short for layout v1. -/
theorem witness_ReadsPastPayloadOutOfRange :
    (ready presetV3 payloadV3).cfg.legal = true ∧ (ready presetV3 payloadV3).hasPayload = true ∧
    presetV3.len < (17#5).toNat + 1 ∧ (8#4).toNat ≤ 8 ∧ presetV3.len < (10#5).toNat + (8#4).toNat ∧
    (∃ c : LaneConfig, c = { presetV1 with paylen := 5#5 } ∧ c.legal = true ∧ c.len < need c) :=
  ⟨by decide, by decide, by decide, by decide, by decide, _, rfl, by decide, by decide⟩

theorem witness_OverlongCountIsIllegalInAnyState :
    (State.resetWith presetV3).cfg.legal = true ∧ 8 < (9#4).toNat ∧ 8 < (15#4).toNat := by decide

theorem witness_RdnibAnswersNibble :
    let s := ready presetV3 payloadV3
    s.cfg.legal = true ∧ s.hasPayload = true ∧ s.ppos = s.cfg.len ∧ (16#5).toNat < s.cfg.len := by decide

/-- The longest field at the end of the payload; also a witness for `DbcdAnswersBase10Sum`. -/
theorem witness_DunsAnswersBase16Sum :
    let s := ready presetV3 payloadV3
    s.cfg.legal = true ∧ s.hasPayload = true ∧ s.ppos = s.cfg.len ∧ (8#4).toNat ≤ 8 ∧
    (9#5).toNat + (8#4).toNat ≤ s.cfg.len ∧ (17#5).toNat + (0#4).toNat ≤ s.cfg.len := by decide

theorem witness_DbcdAnswersBase10Sum :
    let s := ready presetV1 (List.replicate 8 15#4)
    s.cfg.legal = true ∧ s.hasPayload = true ∧ s.ppos = s.cfg.len ∧ (8#4).toNat ≤ 8 ∧
    (0#5).toNat + (8#4).toNat ≤ s.cfg.len := by decide

theorem witness_BcdRangeFitsThirtyTwoBits :
    (∀ n ∈ ([9#4, 9#4] : List Nibble), n.toNat ≤ 9) ∧ (List.replicate 8 15#4 : List Nibble).length ≤ 8 := by decide

/-- One ready lane for each algorithm; each is also a witness for `EmbckAnswersEmbeddedChecksum`. -/
theorem witness_CksumAnswersSelectedSum :
    ∀ s ∈ [ready presetV1 payloadV1, ready presetV2 payloadV2, ready { presetV1 with cksel := .suma } payloadV1],
      s.cfg.legal = true ∧ s.hasPayload = true ∧ s.ppos = s.cfg.len := by decide

/-- The shortest payload. -/
theorem witness_EmbckAnswersEmbeddedChecksum :
    let s := ready tinyDouble [9#4, 6#4]
    s.cfg.legal = true ∧ s.hasPayload = true ∧ s.ppos = s.cfg.len := by decide

/-- The shortest payload layout v1 admits. -/
theorem witness_DecodeV1Reading :
    let s := ready { presetV1 with paylen := 6#5 } [5#4, 6#4, 2#4, 3#4, 4#4, 8#4]
    s.cfg.legal = true ∧ s.hasPayload = true ∧ s.ppos = s.cfg.len ∧ s.cfg.variant = .v1 ∧ 6 ≤ s.cfg.len := by decide

/-- A lane with a channel, and one whose nibble 4 is 0. -/
theorem witness_DecodeV2Reading :
    ∀ s ∈ [ready presetV2 payloadV2, ready presetV2 payloadFree],
      s.cfg.legal = true ∧ s.hasPayload = true ∧ s.ppos = s.cfg.len ∧ s.cfg.variant = .v2 ∧ 12 ≤ s.cfg.len := by decide

theorem witness_DecodeV2Reading_channel : nibbleNum (ready presetV2 payloadV2) 4 ≠ 0 := by decide

/-- The shortest payloads layout v3 admits, with one and with two humidity digits. -/
theorem witness_DecodeV3Reading :
    ∀ s ∈ [ready { presetV3 with paylen := 13#5 } (payloadV3.take 13),
        ready { presetV3 with paylen := 14#5, humpl := .two } (payloadV3.take 14)],
      s.cfg.legal = true ∧ s.hasPayload = true ∧ s.ppos = s.cfg.len ∧ s.cfg.variant = .v3 ∧
      12 + s.cfg.humpl.places ≤ s.cfg.len := by decide

theorem witness_DecodeCarriesBothChecksums :
    ∃ t u, (ready presetV1 payloadV1).ppos = (ready presetV1 payloadV1).cfg.len ∧
      exec .decode (ready presetV1 payloadV1) = .next t ∧ t.resp.st = .ok ∧ exec .cksum (ready presetV1 payloadV1) = .next u :=
  ⟨_, _, by decide, rfl, rfl, rfl⟩

/-- A v2 reading whose channel is free, and one whose channel is not. -/
theorem witness_FreeChannelReachesNothingElse :
    (∃ t u, exec .decode (ready presetV2 payloadFree) = .next t ∧
      exec .decode { ready presetV2 payloadFree with draw := 7 } = .next u) ∧
    (∃ t u, exec .decode (ready presetV2 payloadV2) = .next t ∧ exec .decode { ready presetV2 payloadV2 with draw := 7 } = .next u ∧
      nibbleNum (ready presetV2 payloadV2) 4 ≠ 0) ∧
    (∃ t u, exec .decode (ready presetV1 payloadV1) = .next t ∧ exec .decode { ready presetV1 payloadV1 with draw := 7 } = .next u ∧
      (ready presetV1 payloadV1).cfg.variant ≠ .v2) :=
  ⟨⟨_, _, rfl, rfl⟩, ⟨_, _, rfl, rfl, by decide⟩, ⟨_, _, rfl, rfl, by decide⟩⟩

/-- Also a witness for `RepeatedReadAnswersTheSame`, which has the same hypotheses. -/
theorem witness_ReadsAndClsOnlyRespond :
    (isReadCommand .cksum = true ∧ ∃ t, exec .cksum (ready presetV1 payloadV1) = .next t) ∧
    ((∃ d, Instr.cls 731#32 = .cls d) ∧ ∃ t, exec (.cls 731#32) (ready presetV3 payloadV3) = .next t) :=
  ⟨⟨rfl, _, rfl⟩, ⟨⟨_, rfl⟩, _, rfl⟩⟩

theorem witness_RepeatedReadAnswersTheSame :
    isReadCommand (.rdnib 16#5) = true ∧ ∃ t, exec (.rdnib 16#5) (ready presetV3 payloadV3) = .next t := ⟨rfl, _, rfl⟩

/-- A `Full` edge between the two readings. -/
theorem witness_ReadingStaysUntilReset :
    ∃ t u v, (ready presetV1 payloadV1).hasPayload = true ∧ Instr.edge 2923#32 true ≠ .rst ∧
      exec (.edge 2923#32 true) (ready presetV1 payloadV1) = .next t ∧ exec .decode (ready presetV1 payloadV1) = .next u ∧
      exec .decode t = .next v := ⟨_, _, _, rfl, by decide, rfl, rfl, rfl⟩

/-- A refused read, and each of the three commands that are never refused. -/
theorem witness_RefusedCommandChangesNothing :
    (∃ t, exec .decode (State.resetWith presetV3) = .next t ∧ t.resp.st ≠ .ok) ∧
    (∃ t, exec (.edge 0#32 true) (State.resetWith presetV3) = .next t) ∧ (∃ t, exec .rst (State.resetWith presetV3) = .next t) ∧
    (∃ t, exec (.cls 0#32) (State.resetWith presetV3) = .next t) :=
  ⟨⟨_, rfl, by decide⟩, ⟨_, rfl⟩, ⟨_, rfl⟩, ⟨_, rfl⟩⟩

/-- The greatest answers of section 2.8. -/
theorem witness_ResponseDataFitsTheResult :
    ∃ t, exec (.duns 0#5 8#4) (ready presetV1 (List.replicate 8 15#4)) = .next t ∧ t.resp.data.toNat = 2 ^ 32 - 1 :=
  ⟨_, rfl, by decide⟩

theorem witness_PayloadFrozenUntilReset :
    (ready presetV1 payloadV1).hasPayload = true ∧ Instr.edge 1461#32 false ≠ .rst ∧
    ∃ t, exec (.edge 1461#32 false) (ready presetV1 payloadV1) = .next t := ⟨rfl, by decide, _, rfl⟩

/-- The bit that completes a fill. -/
theorem witness_SynchroniserTransitions :
    Inv (filling tinyDouble [6#4, 9#4, 9#4] 7#4 3#2) ∧
    ∃ t, exec (.edge 900#32 true) (filling tinyDouble [6#4, 9#4, 9#4] 7#4 3#2) = .next t := ⟨inv_filling_late, _, rfl⟩

theorem witness_ResetKeepsInvariants : presetV2.legal = true := by decide

/-- A step that runs a command in Payload Ready. -/
theorem witness_StepKeepsInvariants :
    Inv ((ready presetV3 payloadV3).present 0x2000000000#40) ∧
    ∃ t, step ((ready presetV3 payloadV3).present 0x2000000000#40) = .next t :=
  ⟨⟨by decide, by decide, by decide, by decide, by decide, by decide, by decide, by decide, by decide⟩, _, rfl⟩

theorem witness_LegalLaneNeverStops : Inv (ready presetV3 payloadV3) := inv_ready

theorem witness_OnlyLegalStrapsBuild : presetV2.straps.build = some presetV2 := by decide

/-- Every way a configuration fails to be legal, at its boundary. -/
theorem witness_IllegalConfigurationRefused :
    ∀ c ∈ [{ presetV1 with syncpat := 0#64 }, { presetV1 with paylen := 1#5 }, { presetV1 with paylen := 29#5 },
        { presetV2 with paylen := 15#5 }], (State.resetWith c).cfg.legal = false := by decide

/-- Two lanes of different presets, each given the same edge. -/
def pair : System 2 :=
  #v[(State.resetWith presetV1).give 0x1100000B6B#40, (State.resetWith presetV3).give 0x1100000B6B#40]

theorem witness_LaneStepsCommute :
    ∃ a b, (0 : Fin 2) ≠ 1 ∧ System.stepLane pair 0 = .next a ∧ System.stepLane pair 1 = .next b :=
  ⟨_, _, by decide, rfl, rfl⟩

end Sys2Proof.Tests
end

section
/-! PROOFS. The wires of a configuration (R24 to R28) and the lanes they build. -/

namespace Sys2Proof

open Sys2Proof.Machine (legal_iff)

/-! ### Codes: each read back is the value it stands for -/

/-- The code of `VARIANT` is read back exactly (R24). -/
theorem variantOfCode_eq_some {w : BitVec 2} {v : Variant} : variantOfCode w = some v ↔ w = v.code := by
  cases v <;> revert w <;> decide

/-- The code of `CKSEL` is read back exactly (R26). -/
theorem checksumAlgOfCode_eq_some {w : BitVec 2} {k : ChecksumAlg} : checksumAlgOfCode w = some k ↔ w = k.code := by
  cases k <;> revert w <;> decide

/-- The code of `HUMPL` is read back exactly (R27). -/
theorem humidityDigitsOfCode_eq_some {w : BitVec 2} {h : HumidityDigits} :
    humidityDigitsOfCode w = some h ↔ w = h.code := by
  cases h <;> revert w <;> decide

/-- Every code but the reserved 0 is the code of a variant (R24). -/
theorem exists_variant_code {w : BitVec 2} : (∃ v : Variant, v.code = w) ↔ w = 1#2 ∨ w = 2#2 ∨ w = 3#2 := by
  constructor
  · rintro ⟨v, rfl⟩
    cases v <;> decide
  · rintro (rfl | rfl | rfl)
    exacts [⟨.v1, rfl⟩, ⟨.v2, rfl⟩, ⟨.v3, rfl⟩]

/-- Every code but the reserved 3 is the code of a checksum algorithm (R26). -/
theorem exists_checksumAlg_code {w : BitVec 2} : (∃ k : ChecksumAlg, k.code = w) ↔ w = 0#2 ∨ w = 1#2 ∨ w = 2#2 := by
  constructor
  · rintro ⟨k, rfl⟩
    cases k <;> decide
  · rintro (rfl | rfl | rfl)
    exacts [⟨.suma, rfl⟩, ⟨.sumn, rfl⟩, ⟨.sumb, rfl⟩]

/-- The digit counts are 1 and 2 (R27). -/
theorem exists_humidityDigits_code {w : BitVec 2} : (∃ h : HumidityDigits, h.code = w) ↔ w = 1#2 ∨ w = 2#2 := by
  constructor
  · rintro ⟨h, rfl⟩
    cases h <;> decide
  · rintro (rfl | rfl)
    exacts [⟨.one, rfl⟩, ⟨.two, rfl⟩]

/-! ### The lane that wires build -/

/-- Everything `build` can do: it answers the legal configuration whose wires these are, and no other (R28). -/
theorem Straps.build_eq_some {r : Straps} {c : LaneConfig} : r.build = some c ↔ c.straps = r ∧ c.legal = true := by
  constructor
  · intro hb
    unfold Straps.build at hb
    split at hb
    next v k h hv hk hh =>
      simp only [Option.ite_none_right_eq_some, Option.some.injEq] at hb
      obtain ⟨hl, rfl⟩ := hb
      have hcodes : v.code = r.variant ∧ k.code = r.cksel ∧ h.code = r.humpl :=
        ⟨(variantOfCode_eq_some.1 hv).symm, (checksumAlgOfCode_eq_some.1 hk).symm, (humidityDigitsOfCode_eq_some.1 hh).symm⟩
      exact ⟨by simp only [LaneConfig.straps, hcodes], hl⟩
    next => cases hb
  · rintro ⟨rfl, hl⟩
    have hv : variantOfCode c.straps.variant = some c.variant := variantOfCode_eq_some.2 rfl
    have hk : checksumAlgOfCode c.straps.cksel = some c.cksel := checksumAlgOfCode_eq_some.2 rfl
    have hh : humidityDigitsOfCode c.straps.humpl = some c.humpl := humidityDigitsOfCode_eq_some.2 rfl
    simp only [Straps.build, hv, hk, hh]
    exact if_pos hl

/-- The wires of a legal configuration build it again. -/
theorem LaneConfig.build_straps {c : LaneConfig} (hl : c.legal = true) : c.straps.build = some c :=
  Straps.build_eq_some.2 ⟨rfl, hl⟩

/-- The length limit of R28, one clause for each rate. -/
theorem le_rateLimit_iff {n : Nat} {dbl : Bool} :
    n ≤ (if dbl = true then 14 else 28) ↔ (dbl = false → n ≤ 28) ∧ (dbl = true → n ≤ 14) := by
  cases dbl <;> simp

/-- The legality of R28 on the wires themselves: no reserved code, a pattern, and a length the rate admits. -/
theorem exists_legal_straps_iff {r : Straps} :
    (∃ c : LaneConfig, c.straps = r ∧ c.legal = true) ↔
      r.syncpat ≠ 0#64 ∧ (r.variant = 1#2 ∨ r.variant = 2#2 ∨ r.variant = 3#2) ∧
      (r.cksel = 0#2 ∨ r.cksel = 1#2 ∨ r.cksel = 2#2) ∧ 2 ≤ r.paylen.toNat ∧
      (r.dbl = false → r.paylen.toNat ≤ 28) ∧ (r.dbl = true → r.paylen.toNat ≤ 14) ∧
      (r.humpl = 1#2 ∨ r.humpl = 2#2) := by
  constructor
  · rintro ⟨c, rfl, hl⟩
    obtain ⟨hpat, hmin, hmax⟩ := legal_iff.1 hl
    obtain ⟨hsingle, hdouble⟩ := le_rateLimit_iff.1 hmax
    exact ⟨hpat, exists_variant_code.1 ⟨_, rfl⟩, exists_checksumAlg_code.1 ⟨_, rfl⟩, hmin, hsingle, hdouble,
      exists_humidityDigits_code.1 ⟨_, rfl⟩⟩
  · rintro ⟨hpat, hvariant, hcksel, hmin, hsingle, hdouble, hhumpl⟩
    obtain ⟨v, hv⟩ := exists_variant_code.2 hvariant
    obtain ⟨k, hk⟩ := exists_checksumAlg_code.2 hcksel
    obtain ⟨h, hh⟩ := exists_humidityDigits_code.2 hhumpl
    refine ⟨⟨r.full, r.syncpat, r.paylen, v, r.dbl, k, r.ctap, h⟩, ?_, ?_⟩
    · simp only [LaneConfig.straps, hv, hk, hh]
    · exact legal_iff.2 ⟨hpat, hmin, le_rateLimit_iff.2 ⟨hsingle, hdouble⟩⟩

/-- The three presets are legal (R8, R28). -/
theorem presets_legal : ∀ c ∈ [presetV1, presetV2, presetV3], c.legal = true := by decide

/-- Settles O57: `build` inverts `straps` on the legal configurations, whose wires are those R28 lists. -/
theorem onlyLegalStrapsBuild : Obligations.OnlyLegalStrapsBuild := by
  refine ⟨fun r => ⟨?_, fun c => Straps.build_eq_some.1⟩, fun c hc => LaneConfig.build_straps (presets_legal c hc)⟩
  rw [Option.isSome_iff_exists]
  simp only [Straps.build_eq_some]
  exact exists_legal_straps_iff

end Sys2Proof
end

section
/-! PROOFS. The reset values of a lane (R40) and what puts them there: power-on reset (R151) and `RST` (R97). -/

namespace Sys2Proof.Machine

/-- The meaning of `RST` in the command table. -/
theorem exec_rst (s : State) : exec .rst s = execRst s := rfl

/-- In a legal lane `RST` clears the runtime fields and answers `OK` with data 0 (R97). -/
theorem exec_rst_of_legal {s : State} (hl : s.cfg.legal = true) :
    exec .rst s = .next (s.clearRuntime.withResponse ⟨.ok, 0#85⟩) := by
  rw [exec_rst, execRst, onLane_of_legal hl, respond]

/-- Power-on reset during operation clears the runtime fields as `RST` does, without a response (R151). -/
theorem State.powerOnReset_eq_clearRuntime (s : State) : s.powerOnReset = s.clearRuntime := rfl

/-- Settles O30: a lane just built holds the table's values, and both ways to reset one go through `clearRuntime`. -/
theorem resetValuesAreTheSpecs : Obligations.ResetValuesAreTheSpecs := by
  intro s
  refine ⟨?built, ?powerOn, fun hl => ⟨_, exec_rst_of_legal hl, ?rst⟩⟩
  case built => simp
  case powerOn => simp [State.powerOnReset_eq_clearRuntime]
  case rst => simp

end Sys2Proof.Machine
end

section
/-! PROOFS. Recovered bits in the Filling state: four of them from a nibble boundary append one nibble (R44, R90, R91). -/

namespace Sys2Proof.Machine

/-! ### The nibble cursors -/

/-- A second write of `NIB` and `NIBPOS` hides the first. -/
@[simp] theorem State.withNibble_withNibble (s : State) (v w : BitVec 4) (m n : BitVec 2) :
    (s.withNibble v m).withNibble w n = s.withNibble w n := rfl

/-- `NIB` and `NIBPOS` are apart from `PBUF`. -/
theorem State.withNibble_withPbuf (s : State) (v : BitVec 4) (n : BitVec 2) (m : Memory) :
    (s.withNibble v n).withPbuf m = (s.withPbuf m).withNibble v n := rfl

/-- Writing to `NIB` and `NIBPOS` what they held before the buffer changed leaves only the new buffer. -/
theorem State.withPbuf_withNibble_eq {s : State} {m : Memory} {v : BitVec 4} {n : BitVec 2} (hv : s.nib = v)
    (hn : s.nibpos = n) : (s.withPbuf m).withNibble v n = s.withPbuf m := by
  subst hv hn
  rfl

/-- Four bits assembled from the empty nibble, the first lowest (R44). -/
theorem assemble_four (b0 b1 b2 b3 : Bool) :
    assemble (assemble (assemble (assemble 0#4 0#2 b0) 1#2 b1) 2#2 b2) 3#2 b3 =
      BitVec.ofNat 4 (b0.toNat + 2 * b1.toNat + 4 * b2.toNat + 8 * b3.toNat) := by
  revert b0 b1 b2 b3
  decide

/-- Off the fill target the completion check does nothing (R91). -/
theorem completionCheck_of_ne {s : State} (h : s.ppos ≠ s.cfg.fillTarget) : completionCheck s = s := if_neg h

/-! ### Runs of recovered bits -/

/-- A bit inside a nibble is assembled, and the rest of the run goes on from there (R90). -/
theorem ingestBits_cons_early {s : State} {b : Bool} {rest : List Bool} (hp : s.hasPayload = false)
    (hs : s.synced = true) (hn : s.nibpos.toNat < 3) :
    ingestBits (b :: rest) s = ingestBits rest (s.withNibble (assemble s.nib s.nibpos b) (s.nibpos + 1#2)) := by
  rw [ingestBits, ingestBit_filling hp hs, fillingStep_early hn, Option.bind_some]

/-- The fourth bit appends the nibble and runs the completion check, and the rest of the run goes on from there (R90). -/
theorem ingestBits_cons_fourth {s : State} {b : Bool} {rest : List Bool} (hp : s.hasPayload = false)
    (hs : s.synced = true) (hn : s.nibpos = 3#2) (hc : s.ppos < capacity) :
    ingestBits (b :: rest) s = ingestBits rest
      (completionCheck ((s.withPbuf (s.pbuf ++ [assemble s.nib s.nibpos b])).withNibble 0#4 0#2)) := by
  rw [ingestBits, ingestBit_filling hp hs, fillingStep_fourth hn hc, Option.bind_some]

/-- Three bits from a nibble boundary only fill `NIB`, each one place higher (R44, R90). -/
theorem ingestBits_three {s : State} (b0 b1 b2 : Bool) (rest : List Bool) (hp : s.hasPayload = false)
    (hs : s.synced = true) (hv : s.nib = 0#4) (hn : s.nibpos = 0#2) :
    ingestBits (b0 :: b1 :: b2 :: rest) s =
      ingestBits rest (s.withNibble (assemble (assemble (assemble 0#4 0#2 b0) 1#2 b1) 2#2 b2) 3#2) := by
  simp [ingestBits_cons_early, hp, hs, hv, hn]

/-- Four bits from a nibble boundary: their nibble goes to `PBUF[PPOS]`, then comes the completion check, whether or not the
fill is complete (R44, R90, R91). -/
theorem ingestBits_nibble {s : State} (b0 b1 b2 b3 : Bool) (rest : List Bool) (hp : s.hasPayload = false)
    (hs : s.synced = true) (hv : s.nib = 0#4) (hn : s.nibpos = 0#2) (hc : s.ppos < capacity) :
    ingestBits (b0 :: b1 :: b2 :: b3 :: rest) s = ingestBits rest (completionCheck
      (s.withPbuf (s.pbuf ++ [BitVec.ofNat 4 (b0.toNat + 2 * b1.toNat + 4 * b2.toNat + 8 * b3.toNat)]))) := by
  rw [ingestBits_three b0 b1 b2 (b3 :: rest) hp hs hv hn, ingestBits_cons_fourth (s := s.withNibble _ 3#2) hp hs rfl hc]
  simp only [State.withNibble_nib, State.withNibble_nibpos, State.withNibble_pbuf, assemble_four]
  rw [State.withNibble_withPbuf, State.withNibble_withNibble, State.withPbuf_withNibble_eq hv hn]

/-- Settles O24: the append leaves `PPOS` off the fill target, so the completion check does nothing. -/
theorem nibbleFillsLeastSignificantFirst : Obligations.NibbleFillsLeastSignificantFirst := by
  intro s b0 b1 b2 b3 hp hs hv hn hc ht
  rw [ingestBits_nibble b0 b1 b2 b3 [] hp hs hv hn hc, completionCheck_of_ne ?offTarget]
  · rfl
  case offTarget => simpa [State.ppos] using ht

end Sys2Proof.Machine
end

section
/-! PROOFS. Words that spell no command (R65, R66, R67): what a word that decodes must hold, and the answer to all others. -/

namespace Sys2Proof.Machine

/-! ### What a word that decodes must hold -/

/-- The opcode `W[39:36]` is what stands above the 36 lower bits (R60). -/
theorem opcode_toNat (w : CommandWord) : (wordField w 36 4).toNat = w.toNat / 2 ^ 36 := by
  rw [wordField_toNat]
  omega

/-- The opcode of a word that decodes is one of the eight defined ones (R63, R65). -/
theorem decode_opcode {w : CommandWord} {i : Instr} (h : decode w = .ok i) :
    1 ≤ w.toNat / 2 ^ 36 ∧ w.toNat / 2 ^ 36 ≤ 8 := by
  rw [← opcode_toNat]
  rcases decode_cases h with ⟨hop, -⟩ | ⟨hop, -⟩ | ⟨hop, -⟩ | ⟨hop, -⟩ | ⟨hop, -⟩ | ⟨hop, -⟩ | ⟨hop, -⟩ | ⟨hop, -⟩ <;>
    omega

/-- In a format F word that decodes, `count = W[8:5]` is at most 8 (R67). -/
theorem decode_count {w : CommandWord} {i : Instr} (h : decode w = .ok i)
    (hop : w.toNat / 2 ^ 36 = 5 ∨ w.toNat / 2 ^ 36 = 6) : w.toNat / 2 ^ 5 % 16 ≤ 8 := by
  have hcount : (countOf w).toNat = w.toNat / 2 ^ 5 % 16 := wordField_toNat w 5 4
  rw [← opcode_toNat] at hop
  rw [← hcount]
  rcases decode_cases h with ⟨ho, -⟩ | ⟨ho, -⟩ | ⟨ho, -⟩ | ⟨ho, -⟩ | ⟨-, -, hc, -⟩ | ⟨-, -, hc, -⟩ | ⟨ho, -⟩ | ⟨ho, -⟩ <;>
    omega

/-- In a word that decodes, every field its format shows as `0` is zero, opcode by opcode (R60, R66). -/
theorem decode_reserved_zero {w : CommandWord} {i : Instr} (h : decode w = .ok i) :
    (w.toNat / 2 ^ 36 = 1 → w.toNat / 2 ^ 33 % 2 ^ 3 = 0) ∧
    (w.toNat / 2 ^ 36 = 3 → w.toNat / 2 ^ 32 % 2 ^ 4 = 0) ∧
    (w.toNat / 2 ^ 36 = 5 → w.toNat / 2 ^ 9 % 2 ^ 27 = 0) ∧
    (w.toNat / 2 ^ 36 = 6 → w.toNat / 2 ^ 10 % 2 ^ 26 = 0) ∧
    (w.toNat / 2 ^ 36 = 7 → w.toNat / 2 ^ 5 % 2 ^ 31 = 0) ∧
    (w.toNat / 2 ^ 36 = 2 ∨ w.toNat / 2 ^ 36 = 4 ∨ w.toNat / 2 ^ 36 = 8 → w.toNat % 2 ^ 36 = 0) := by
  rcases decode_cases h with ⟨hop, hz, -⟩ | ⟨hop, hz, -⟩ | ⟨hop, hz, -⟩ | ⟨hop, hz, -⟩ | ⟨hop, hz, -⟩ | ⟨hop, hz, -⟩ |
    ⟨hop, hz, -⟩ | ⟨hop, hz, -⟩
  all_goals
    rw [opcode_toNat] at hop
    rw [← BitVec.toNat_inj, wordField_toNat, BitVec.toNat_ofNat] at hz
    omega

/-- A word that decodes passes the match and mask test of the row with its opcode (R63). -/
theorem decode_matches_row {w : CommandWord} {i : Instr} {r : OpcodeRow} (h : decode w = .ok i) (hr : r ∈ opcodeTable)
    (hop : w.toNat / 2 ^ 36 = r.pattern.toNat / 2 ^ 36) : w &&& r.mask = r.pattern := by
  obtain ⟨medge, mrst, mcls, mcksum, mduns, mdbcd, mrdnib, mdecode⟩ := opcodeRow_tests w
  obtain ⟨zedge, zcls, zduns, zdbcd, zrdnib, zbare⟩ := decode_reserved_zero h
  simp only [opcodeTable, List.mem_cons, List.not_mem_nil, or_false] at hr
  rcases hr with rfl | rfl | rfl | rfl | rfl | rfl | rfl | rfl <;> simp only [BitVec.toNat_ofNat] at hop
  · exact medge.2 (by omega)
  · exact mrst.2 (by omega)
  · exact mcls.2 (by omega)
  · exact mcksum.2 (by omega)
  · exact mduns.2 (by omega)
  · exact mdbcd.2 (by omega)
  · exact mrdnib.2 (by omega)
  · exact mdecode.2 (by omega)

/-! ### The answer to a word that spells no command -/

/-- What the port presents when its first word spells no command: that word is taken, and nothing else (R68). -/
theorem takeWord_illegal {s : State} {w : CommandWord} {rest : List CommandWord} {e : DecodeError}
    (hport : s.port = w :: rest) (hw : decode w = .error e) : takeWord s = .illegal e (s.withPort rest) := by
  simp only [takeWord, hport, hw]

/-- In a legal lane the answer to an illegal word is `ILLEGAL` with data 0, and nothing else changes (R68). -/
theorem answerIllegal_of_legal {s : State} (hl : s.cfg.legal = true) :
    answerIllegal s = .next (s.withResponse ⟨.illegal, 0#85⟩) := by
  rw [answerIllegal, onLane_of_legal hl, refuse]

/-- A word that decodes to no command is taken from the port and answered `ILLEGAL`, whatever makes it illegal (R68). -/
theorem step_of_undecodable {s : State} {w : CommandWord} {rest : List CommandWord} (hl : s.cfg.legal = true)
    (hport : s.port = w :: rest) (hw : ∀ i, decode w ≠ .ok i) :
    step s = .next { s with port := rest, resp := ⟨.illegal, 0#85⟩ } := by
  cases hd : decode w with
  | ok i => exact absurd hd (hw i)
  | error e =>
    rw [step, takeWord_illegal hport hd]
    exact answerIllegal_of_legal (s := s.withPort rest) hl

/-- Settles O4: a word that decodes would match the row of its opcode. -/
theorem nonzeroReservedFieldAnswersIllegal : Obligations.NonzeroReservedFieldAnswersIllegal := by
  intro s w rest r hl hport hr hop hmask
  exact step_of_undecodable hl hport fun i hi => hmask (decode_matches_row hi hr hop)

/-- Settles O5: a format F word that decodes has a `count` of at most 8. -/
theorem reservedCountAnswersIllegal : Obligations.ReservedCountAnswersIllegal := by
  intro s w rest hl hport hop hcount
  refine step_of_undecodable hl hport fun i hi => ?_
  have := decode_count hi hop
  omega

/-- Settles O3: a word that decodes has an opcode from 1 to 8. -/
theorem reservedOpcodeAnswersIllegal : Obligations.ReservedOpcodeAnswersIllegal := by
  intro s w rest hl hport hop
  refine step_of_undecodable hl hport fun i hi => ?_
  obtain ⟨hmin, hmax⟩ := decode_opcode hi
  omega

end Sys2Proof.Machine
end

section
/-! PROOFS. The classes of a pulse as bands of durations (R75 to R78), and what is said of `classify`, `CLS` and `recoverBit`. -/

namespace Sys2Proof.Machine

/-! ### The two bands without subtraction -/

/-- The model's distance is the absolute difference of the integers (R76). -/
@[simp] theorem absDiff_cast (a b : Nat) : (absDiff a b : ℤ) = |(a : ℤ) - b| := by
  unfold absDiff
  rcases le_total a b with hab | hba
  · rw [abs_of_nonpos] <;> omega
  · rw [abs_of_nonneg] <;> omega

/-- Within ±50% of `h`: between `h/2` and `3h/2`, both excluded (R76). -/
theorem two_mul_absDiff_lt_iff {d h : Nat} : 2 * absDiff d h < h ↔ h < 2 * d ∧ 2 * d < 3 * h := by
  unfold absDiff
  omega

/-- Within ±25% of `f`: between `3f/4` and `5f/4`, both excluded (R76). -/
theorem four_mul_absDiff_lt_iff {d f : Nat} : 4 * absDiff d f < f ↔ 3 * f < 4 * d ∧ 4 * d < 5 * f := by
  unfold absDiff
  omega

/-- The band around `h` over the rationals (R76). -/
theorem halfBand_rat {d h : Nat} : ((h : ℚ) / 2 < d ∧ (d : ℚ) < 3 * h / 2) ↔ h < 2 * d ∧ 2 * d < 3 * h := by
  rw [div_lt_iff₀' two_pos, lt_div_iff₀' two_pos]
  norm_cast

/-- The band around `f` over the rationals (R76). -/
theorem fullBand_rat {d f : Nat} : (3 * (f : ℚ) / 4 < d ∧ (d : ℚ) < 5 * f / 4) ↔ 3 * f < 4 * d ∧ 4 * d < 5 * f := by
  rw [div_lt_iff₀' four_pos, lt_div_iff₀' four_pos]
  norm_cast

/-- `HALF` is at most half of `FULL` (R20). -/
theorem two_mul_half_le (c : LaneConfig) : 2 * c.half ≤ c.full.toNat := Nat.mul_div_le _ 2

/-- The bands never overlap: the lower one ends where the upper one begins, or before (R77). -/
theorem bands_disjoint {c : LaneConfig} {d : Nat} (hhalf : 2 * d < 3 * c.half) : ¬ 3 * c.full.toNat < 4 * d := by
  have := two_mul_half_le c
  omega

/-! ### When a duration has each class -/

/-- A pulse is `Half` exactly in the band around `HALF`. -/
theorem classify_eq_half {c : LaneConfig} {d : Duration} :
    classify c d = .half ↔ c.half < 2 * d.toNat ∧ 2 * d.toNat < 3 * c.half := by
  rw [← two_mul_absDiff_lt_iff, classify]
  split_ifs with hh hf <;> simp [hh]

/-- A pulse is `Full` exactly in the band around `FULL`: the test for `Half` before it takes none of them (R77). -/
theorem classify_eq_full {c : LaneConfig} {d : Duration} :
    classify c d = .full ↔ 3 * c.full.toNat < 4 * d.toNat ∧ 4 * d.toNat < 5 * c.full.toNat := by
  rw [← four_mul_absDiff_lt_iff, classify]
  split_ifs with hh hf
  · have hnot : ¬ 4 * absDiff d.toNat c.full.toNat < c.full.toNat := fun hf =>
      bands_disjoint (two_mul_absDiff_lt_iff.1 hh).2 (four_mul_absDiff_lt_iff.1 hf).1
    simp [hnot]
  · simp [hf]
  · simp [hf]

/-- A pulse is `Invalid` exactly when it has neither other class. -/
theorem classify_eq_invalid {c : LaneConfig} {d : Duration} :
    classify c d = .invalid ↔ classify c d ≠ .half ∧ classify c d ≠ .full := by
  cases classify c d <;> simp

/-- A duration on or above the upper edge of the band around `FULL` is `Invalid` (R78). -/
theorem classify_invalid_of_long {c : LaneConfig} {d : Duration} (hd : 5 * c.full.toNat ≤ 4 * d.toNat) :
    classify c d = .invalid := by
  rw [classify_eq_invalid, Ne, classify_eq_half, Ne, classify_eq_full]
  have := two_mul_half_le c
  omega

/-- The pulse of no length is `Invalid` (R78). -/
theorem classify_zero (c : LaneConfig) : classify c 0#32 = .invalid := by
  simp [classify_eq_invalid, classify_eq_half, classify_eq_full]

/-- The nominal half-bit pulse is `Half`, when there is one (R78). -/
theorem classify_half {c : LaneConfig} (h : 1 ≤ c.half) : classify c (BitVec.ofNat 32 c.half) = .half := by
  have hfit : c.half < 2 ^ 32 := lt_of_le_of_lt (Nat.div_le_self _ 2) c.full.isLt
  rw [classify_eq_half, BitVec.toNat_ofNat, Nat.mod_eq_of_lt hfit]
  omega

/-- The nominal full-bit pulse is `Full`, when there is one (R78). -/
theorem classify_full {c : LaneConfig} (h : 1 ≤ c.full.toNat) : classify c c.full = .full := by
  rw [classify_eq_full]
  omega

/-- With `FULL = 1` nothing is `Half`, and 1 is the one duration that is `Full` (R78). -/
theorem classify_of_full_one {c : LaneConfig} (h : c.full = 1#32) (d : Duration) :
    classify c d = if d = 1#32 then .full else .invalid := by
  have hfull : c.full.toNat = 1 := congrArg BitVec.toNat h
  split_ifs with hd
  · rw [hd, ← h]
    exact classify_full hfull.ge
  · have hne : d.toNat ≠ 1 := fun e => hd (BitVec.eq_of_toNat_eq e)
    have := two_mul_half_le c
    rw [classify_eq_invalid, Ne, classify_eq_half, Ne, classify_eq_full]
    omega

/-! ### The answer of `CLS` -/

/-- The meaning of `CLS` in the command table. -/
theorem exec_cls (d : Duration) (s : State) : exec (.cls d) s = execCls d s := rfl

/-- In a legal lane `CLS` answers the number of the class, and nothing else changes (R83). -/
theorem exec_cls_of_legal {s : State} (hl : s.cfg.legal = true) (d : Duration) :
    exec (.cls d) s = .next (s.withResponse ⟨.ok, toData (classify s.cfg d).code⟩) := by
  rw [exec_cls, execCls, onLane_of_legal hl, respond]

/-- The number of the class on the data bus, by the tests of R75 on integers. -/
theorem classify_code_toData (c : LaneConfig) (d : Duration) :
    toData (classify c d).code =
      if 2 * |(d.toNat : ℤ) - c.half| < c.half then 1#85
      else if 4 * |(d.toNat : ℤ) - c.full.toNat| < c.full.toNat then 2#85 else 0#85 := by
  simp only [← absDiff_cast, classify]
  norm_cast
  split_ifs <;> rfl

/-! ### The obligations -/

/-- Settles O10, from the answer of `CLS` in a legal lane. -/
theorem clsAnswersTheBand : Obligations.ClsAnswersTheBand := by
  intro s d hl
  rw [exec_cls_of_legal hl, classify_code_toData]
  rfl

/-- Settles O11: the bands of `classify_eq_half` and `classify_eq_full`, divided by 2 and by 4 over the rationals. -/
theorem classifyIsOpenIntervals : Obligations.ClassifyIsOpenIntervals := by
  intro c d
  have hd : (d.toNat : ℤ) < 2 ^ 32 := mod_cast d.isLt
  have hf : (c.full.toNat : ℤ) < 2 ^ 32 := mod_cast c.full.isLt
  have hh : (c.half : ℤ) < 2 ^ 32 := by
    have := two_mul_half_le c
    omega
  exact ⟨abs_sub_lt_of_nonneg_of_lt (Int.natCast_nonneg _) hd (Int.natCast_nonneg _) hh,
    abs_sub_lt_of_nonneg_of_lt (Int.natCast_nonneg _) hd (Int.natCast_nonneg _) hf,
    classify_eq_half.trans halfBand_rat.symm, classify_eq_full.trans fullBand_rat.symm⟩

/-- Settles O12, a lemma for each corner; with `FULL = 0` every duration is on or above the upper edge. -/
theorem classifyCornerCases : Obligations.ClassifyCornerCases := fun c =>
  ⟨classify_zero c, classify_half, classify_full, fun h0 _ => classify_invalid_of_long (by simp [h0]), classify_of_full_one,
    fun _ => classify_invalid_of_long⟩

/-- Settles O13: the edges the pseudo-code rejects are those of `recoverBit_none`, and the others yield a bit. -/
theorem recoverBitFollowsPseudocode : Obligations.RecoverBitFollowsPseudocode := by
  intro c p d level
  split_ifs with hinvalid hac hhalf
  · exact recoverBit_none (.inl hinvalid)
  · exact recoverBit_some ⟨hinvalid, .inl hac⟩
  · have hash : p = .ash := by cases p <;> simp_all
    exact recoverBit_none (.inr ⟨hash, hhalf⟩)
  · have hfull : classify c d = .full := by
      by_contra hne
      exact hinvalid (classify_eq_invalid.2 ⟨hhalf, hne⟩)
    exact recoverBit_some ⟨hinvalid, .inr hfull⟩

end Sys2Proof.Machine
end

section
/-! PROOFS. `EDGE` (R85 to R94): what a rejected edge and an edge that yields a bit do, the Unsynced step by the number of its
window, and the transitions of the synchroniser (R86). -/

namespace Sys2Proof.Machine

/-! ### A recovered bit in each state of the synchroniser -/

/-- A ready payload is left alone (R93). -/
theorem ingestBit_ready {s : State} {b : Bool} (hp : s.hasPayload = true) : ingestBit b s = some s := if_pos hp

/-- In the Unsynced state a recovered bit goes to the sync matcher (R85). -/
theorem ingestBit_unsynced {s : State} {b : Bool} (hp : s.hasPayload = false) (hs : s.synced = false) :
    ingestBit b s = some (unsyncedStep b s) := by simp [ingestBit, hp, hs]

/-- A recovered bit is ingested wherever a fill in progress still has room (R33, R85). -/
theorem ingestBit_answers {s : State} (b : Bool) (hroom : s.hasPayload = false → s.ppos < capacity) :
    ∃ t, ingestBit b s = some t := by
  cases hp : s.hasPayload with
  | true => exact ⟨s, ingestBit_ready hp⟩
  | false =>
    cases hs : s.synced with
    | true => exact ingestBit_filling hp hs ▸ fillingStep_answers (hroom hp)
    | false => exact ⟨_, ingestBit_unsynced hp hs⟩

/-- A fill in progress has room: it is below its target, which lies inside the buffer (R39 item 2, R91). -/
theorem Inv.ppos_lt_capacity {s : State} (h : Inv s) (hp : s.hasPayload = false) : s.ppos < capacity :=
  lt_of_lt_of_le (h.filling_below hp) (fillTarget_le h.legal).1

/-! ### The Unsynced step by the number of its window -/

/-- The register after the shift and mask holds `nextWindow` (R87). -/
theorem shiftIn_toNat_eq_nextWindow (s : State) (b : Bool) :
    (shiftIn s.cfg.synclen s.sr b).toNat = nextWindow s b :=
  shiftIn_toNat (synclen_le s.cfg) s.sr b

/-- The register after the shift and mask, as the word of that number. -/
theorem shiftIn_eq_ofNat_nextWindow (s : State) (b : Bool) :
    shiftIn s.cfg.synclen s.sr b = BitVec.ofNat 64 (nextWindow s b) := by
  rw [← shiftIn_toNat_eq_nextWindow, BitVec.ofNat_toNat, BitVec.setWidth_eq]

/-- The comparison of R88 is one of numbers. -/
theorem shiftIn_eq_syncpat_iff {s : State} {b : Bool} :
    shiftIn s.cfg.synclen s.sr b = s.cfg.syncpat ↔ nextWindow s b = s.cfg.syncpat.toNat := by
  rw [← shiftIn_toNat_eq_nextWindow, BitVec.toNat_inj]

/-- The Unsynced step on a window that equals `SYNCPAT` starts the fill (R88, R89). -/
theorem unsyncedStep_of_match {s : State} {b : Bool} (h : nextWindow s b = s.cfg.syncpat.toNat) :
    unsyncedStep b s = (s.withSr s.cfg.syncpat).startFill := by
  obtain ⟨-, hstep⟩ | ⟨hmiss, -⟩ := unsyncedStep_cases b s
  · exact hstep
  · exact absurd (shiftIn_eq_syncpat_iff.2 h) hmiss

/-- The Unsynced step on any other window only keeps the window (R87). -/
theorem unsyncedStep_of_miss {s : State} {b : Bool} (h : nextWindow s b ≠ s.cfg.syncpat.toNat) :
    unsyncedStep b s = s.withSr (BitVec.ofNat 64 (nextWindow s b)) := by
  obtain ⟨hmatch, -⟩ | ⟨-, hstep⟩ := unsyncedStep_cases b s
  · exact absurd (shiftIn_eq_syncpat_iff.1 hmatch) h
  · rw [hstep, shiftIn_eq_ofNat_nextWindow]

/-! ### The two kinds of edge -/

/-- The meaning of `EDGE` in the command table. -/
theorem exec_edge (d : Duration) (level : Bool) (s : State) : exec (.edge d level) s = execEdge d level s := rfl

/-- An edge that yields no bit is one of those the pseudo-code rejects (R79, R80). -/
theorem recoverBit_of_not_yieldsBit {s : State} {d : Duration} (hy : ¬ YieldsBit s d) (level : Bool) :
    recoverBit s.cfg s.phase d level = (.ac, none) := by
  obtain ⟨-, hr⟩ | ⟨h, -⟩ := recoverBit_cases s.cfg s.phase d level
  · exact hr
  · exact absurd h hy

/-- A rejected edge moves `PHASE`, answers `OK` with data 0, and changes nothing else (R85, R94). -/
theorem exec_edge_of_not_yieldsBit {s : State} {d : Duration} (level : Bool) (hl : s.cfg.legal = true)
    (hy : ¬ YieldsBit s d) :
    exec (.edge d level) s = .next ((s.withPhase .ac).withResponse ⟨.ok, 0#85⟩) := by
  rw [exec_edge, execEdge, onLane_of_legal hl, recoverBit_of_not_yieldsBit hy]
  rfl

/-- An edge that yields a bit ingests it in AwaitingSecondHalf and reports it (R85, R94). -/
theorem exec_edge_of_yieldsBit {s u : State} {d : Duration} {level : Bool} (hl : s.cfg.legal = true)
    (hy : YieldsBit s d) (hu : ingestBit (!level) (s.withPhase .ash) = some u) :
    exec (.edge d level) s = .next (u.withResponse ⟨.ok, BitVec.ofNat 85 (2 + (!level).toNat)⟩) := by
  rw [exec_edge, execEdge_ingested hl hy hu, edgeData_some]

/-- Settles O15: the bit goes to the sync matcher, which compares `nextWindow`. -/
theorem unsyncedEdgeShiftsAndMatches : Obligations.UnsyncedEdgeShiftsAndMatches := by
  intro s d level hl hy hp hs
  rw [exec_edge_of_yieldsBit hl hy (ingestBit_unsynced (s := s.withPhase .ash) hp hs)]
  split_ifs with hmatch
  · rw [unsyncedStep_of_match (s := s.withPhase .ash) hmatch]
    rfl
  · rw [unsyncedStep_of_miss (s := s.withPhase .ash) hmatch]
    rfl

/-- Settles O21: a rejected edge writes `PHASE` alone, and a recovered bit is not ingested. -/
theorem readyEdgeMovesPhaseOnly : Obligations.ReadyEdgeMovesPhaseOnly := by
  intro s d level hl hp
  by_cases hy : YieldsBit s d
  · rw [exec_edge_of_yieldsBit hl hy (ingestBit_ready (s := s.withPhase .ash) hp), recoverBit_some hy, if_pos hy]
    rfl
  · rw [exec_edge_of_not_yieldsBit level hl hy, recoverBit_of_not_yieldsBit hy, if_neg hy]
    rfl

/-- Settles O22: the one way for an edge to stop is an append outside the buffer, and the invariants keep room for it. -/
theorem edgeAlwaysAnswersOk : Obligations.EdgeAlwaysAnswersOk := by
  intro s d level hinv
  by_cases hy : YieldsBit s d
  · obtain ⟨u, hu⟩ := ingestBit_answers (s := s.withPhase .ash) (!level) hinv.ppos_lt_capacity
    exact ⟨_, exec_edge_of_yieldsBit hinv.legal hy hu, by rw [if_pos hy]; rfl⟩
  · exact ⟨_, exec_edge_of_not_yieldsBit level hinv.legal hy, by rw [if_neg hy]; rfl⟩

/-! ### The state of the synchroniser -/

@[simp] theorem State.withPhase_syncState (s : State) (p : Phase) : (s.withPhase p).syncState = s.syncState := rfl
@[simp] theorem State.withSr_syncState (s : State) (v : BitVec 64) : (s.withSr v).syncState = s.syncState := rfl
@[simp] theorem State.withNibble_syncState (s : State) (v : BitVec 4) (n : BitVec 2) :
    (s.withNibble v n).syncState = s.syncState := rfl
@[simp] theorem State.withPbuf_syncState (s : State) (m : Memory) : (s.withPbuf m).syncState = s.syncState := rfl
@[simp] theorem State.clearRuntime_syncState (s : State) : s.clearRuntime.syncState = some .unsynced := rfl
@[simp] theorem State.withResponse_syncState (s : State) (r : Response) : (s.withResponse r).syncState = s.syncState := rfl

/-- Unsynced is (0, 0) (R86). -/
theorem State.syncState_eq_unsynced {s : State} :
    s.syncState = some .unsynced ↔ s.synced = false ∧ s.hasPayload = false := by
  cases hs : s.synced <;> cases hp : s.hasPayload <;> simp [State.syncState, hs, hp]

/-- Filling is (1, 0) (R86). -/
theorem State.syncState_eq_filling {s : State} :
    s.syncState = some .filling ↔ s.synced = true ∧ s.hasPayload = false := by
  cases hs : s.synced <;> cases hp : s.hasPayload <;> simp [State.syncState, hs, hp]

/-- Ready is (1, 1) (R86). -/
theorem State.syncState_eq_ready {s : State} :
    s.syncState = some .ready ↔ s.synced = true ∧ s.hasPayload = true := by
  cases hs : s.synced <;> cases hp : s.hasPayload <;> simp [State.syncState, hs, hp]

/-- The pair (0, 1) is no state of the synchroniser (R39 item 4). -/
theorem State.syncState_eq_none {s : State} :
    s.syncState = none ↔ s.synced = false ∧ s.hasPayload = true := by
  cases hs : s.synced <;> cases hp : s.hasPayload <;> simp [State.syncState, hs, hp]

/-! ### The transitions -/

/-- From Unsynced the sync match leads to Filling (R86, R88). -/
theorem unsyncedStep_syncState {s : State} (b : Bool) (h : s.syncState = some .unsynced) :
    (unsyncedStep b s).syncState =
      if nextWindow s b = s.cfg.syncpat.toNat then some .filling else some .unsynced := by
  obtain ⟨-, hp⟩ := State.syncState_eq_unsynced.1 h
  split_ifs with hmatch
  · rw [unsyncedStep_of_match hmatch]
    exact State.syncState_eq_filling.2 ⟨rfl, hp⟩
  · rw [unsyncedStep_of_miss hmatch, State.withSr_syncState, h]

/-- The completion check leads from Filling to Ready at the fill target, in either kind of lane (R86, R91). -/
theorem completionCheck_syncState {s : State} (h : s.syncState = some .filling) :
    (completionCheck s).syncState = if s.ppos = s.cfg.fillTarget then some .ready else some .filling := by
  obtain ⟨hs, -⟩ := State.syncState_eq_filling.1 h
  obtain ⟨hoff, hstep⟩ | ⟨hat, -, hstep⟩ | ⟨hat, -, hstep⟩ := completionCheck_cases s
  · rw [hstep, if_neg hoff, h]
  · rw [hstep, if_pos hat, State.syncState_eq_ready]
    exact ⟨hs, rfl⟩
  · rw [hstep, if_pos hat, State.syncState_eq_ready]
    exact ⟨hs, rfl⟩

/-- From Filling the bit that completes the last nibble leads to Ready (R86, R91). -/
theorem fillingStep_syncState {s t : State} {b : Bool} (h : s.syncState = some .filling)
    (ht : fillingStep b s = some t) :
    t.syncState = if s.nibpos = 3#2 ∧ s.ppos + 1 = s.cfg.fillTarget then some .ready else some .filling := by
  obtain ⟨hn, rfl⟩ | ⟨hn, -, rfl⟩ := fillingStep_some ht
  · have hne : s.nibpos ≠ 3#2 := fun e => absurd hn (by rw [e]; decide)
    simp [hne, h]
  · rw [completionCheck_syncState (by simpa using h)]
    simp [hn, State.ppos]

/-- What a recovered bit does in Unsynced (R86, R88). -/
theorem ingestBit_syncState_of_unsynced {s t : State} {b : Bool} (h : s.syncState = some .unsynced)
    (ht : ingestBit b s = some t) :
    t.syncState = if nextWindow s b = s.cfg.syncpat.toNat then some .filling else some .unsynced := by
  obtain ⟨hs, hp⟩ := State.syncState_eq_unsynced.1 h
  obtain rfl : unsyncedStep b s = t := Option.some.inj ((ingestBit_unsynced hp hs).symm.trans ht)
  exact unsyncedStep_syncState b h

/-- What a recovered bit does in Filling (R86, R91). -/
theorem ingestBit_syncState_of_filling {s t : State} {b : Bool} (h : s.syncState = some .filling)
    (ht : ingestBit b s = some t) :
    t.syncState = if s.nibpos = 3#2 ∧ s.ppos + 1 = s.cfg.fillTarget then some .ready else some .filling := by
  obtain ⟨hs, hp⟩ := State.syncState_eq_filling.1 h
  exact fillingStep_syncState h ((ingestBit_filling hp hs).symm.trans ht)

/-- What a recovered bit does while a payload is held: nothing (R93). -/
theorem ingestBit_syncState_of_hasPayload {s t : State} {b : Bool} (hp : s.hasPayload = true)
    (ht : ingestBit b s = some t) : t.syncState = s.syncState := by
  obtain rfl : s = t := Option.some.inj ((ingestBit_ready hp).symm.trans ht)
  rfl

/-- `OnlyResponse` of an answer that is written as a response. -/
theorem onlyResponse_withResponse (s : State) (r : Response) : OnlyResponse s (s.withResponse r) := rfl

/-- A field read, refused or not, changes nothing but the response (R52, R107). -/
theorem readField_onlyResponse {s t : State} {start count : Nat} {f : List Nibble → ResponseData}
    (h : readField s start count f = .next t) : OnlyResponse s t := by
  obtain ⟨-, rfl⟩ | ⟨-, -, rfl⟩ | ⟨-, -, -, rfl⟩ := readField_next h <;> exact onlyResponse_withResponse s _

/-- The count check before a field read changes nothing but the response either (R67). -/
theorem withCount_readField_onlyResponse {s t : State} {start n : Nat} {count : BitVec 4}
    {f : List Nibble → ResponseData} (h : withCount s count (readField s start n f) = .next t) : OnlyResponse s t := by
  obtain ⟨-, rfl⟩ | ⟨-, hread⟩ := withCount_next h
  · exact onlyResponse_withResponse s _
  · exact readField_onlyResponse hread

/-- The five read commands change nothing but the response (R52). -/
theorem exec_read_onlyResponse {s t : State} {i : Instr} (hread : isReadCommand i = true) (h : exec i s = .next t) :
    OnlyResponse s t := by
  cases i with
  | edge _ _ => cases hread
  | rst => cases hread
  | cls _ => cases hread
  | cksum => exact readField_onlyResponse (onLane_next.1 h).2
  | duns _ _ => exact withCount_readField_onlyResponse (onLane_next.1 h).2
  | dbcd _ _ _ => exact withCount_readField_onlyResponse (onLane_next.1 h).2
  | rdnib _ => exact readField_onlyResponse (onLane_next.1 h).2
  | decode =>
    have hk := (onLane_next.1 h).2
    split_ifs at hk
    · exact refuse_next.1 hk ▸ onlyResponse_withResponse s _
    · exact refuse_next.1 hk ▸ onlyResponse_withResponse s _
    · exact readField_onlyResponse hk

/-- A command that changes nothing but the response leaves the synchroniser where it is. -/
theorem OnlyResponse.syncState_eq {s t : State} (h : OnlyResponse s t) : t.syncState = s.syncState := by
  rw [OnlyResponse] at h
  rw [h, State.withResponse_syncState]

/-- A command that recovers a bit is an edge, and moves the synchroniser as ingesting the bit does (R85, R86). -/
theorem exec_syncState_of_recovered {s t : State} {i : Instr} {b : Bool} (hb : recoveredBit s i = some b)
    (h : exec i s = .next t) :
    ∃ u, ingestBit b (s.withPhase .ash) = some u ∧ t.syncState = u.syncState := by
  cases i with
  | edge d level =>
    rw [recoveredBit] at hb
    obtain ⟨-, ⟨hrej, -⟩ | ⟨hy, u, hu, rfl⟩⟩ := execEdge_next h
    · simp [recoverBit_none hrej] at hb
    · obtain rfl : (!level) = b := by simpa [recoverBit_some hy] using hb
      exact ⟨u, hu, State.withResponse_syncState u _⟩
  | _ => cases hb

/-- Without a recovered bit only `RST` moves the synchroniser (R86). -/
theorem exec_syncState_of_no_bit {s t : State} {i : Instr} (hrst : i ≠ .rst) (hb : recoveredBit s i = none)
    (h : exec i s = .next t) : t.syncState = s.syncState := by
  cases i with
  | edge d level =>
    rw [recoveredBit] at hb
    obtain ⟨-, ⟨-, rfl⟩ | ⟨hy, -⟩⟩ := execEdge_next h
    · rw [State.withResponse_syncState, State.withPhase_syncState]
    · simp [recoverBit_some hy] at hb
  | rst => exact absurd rfl hrst
  | cls d => rw [(execCls_next h).2, State.withResponse_syncState]
  | _ => exact (exec_read_onlyResponse rfl h).syncState_eq

/-- Settles O53: by the command (reset, no bit, a bit) and for a bit by the state of the synchroniser it meets. -/
theorem synchroniserTransitions : Obligations.SynchroniserTransitions := by
  refine ⟨fun s t i _ h => ?_, State.clearRuntime_syncState⟩
  by_cases hrst : i = .rst
  · subst hrst
    rw [if_pos rfl, (execRst_next h).2, State.withResponse_syncState, State.clearRuntime_syncState]
  rw [if_neg hrst]
  cases hb : recoveredBit s i with
  | none => exact exec_syncState_of_no_bit hrst hb h
  | some b =>
    obtain ⟨u, hu, ht⟩ := exec_syncState_of_recovered hb h
    rw [ht]
    have hheld (hp : s.hasPayload = true) : u.syncState = s.syncState :=
      ingestBit_syncState_of_hasPayload (s := s.withPhase .ash) hp hu
    cases hs : s.syncState with
    | none => exact (hheld (State.syncState_eq_none.1 hs).2).trans hs
    | some now =>
      cases now with
      | unsynced => exact ingestBit_syncState_of_unsynced (s := s.withPhase .ash) hs hu
      | filling => exact ingestBit_syncState_of_filling (s := s.withPhase .ash) hs hu
      | ready => exact (hheld (State.syncState_eq_ready.1 hs).2).trans hs

end Sys2Proof.Machine
end

section
/-! PROOFS. `CKSUM` (R101 to R104): each checksum of a payload as a sum over the indices of its nibbles. -/

namespace Sys2Proof.Machine

/-! ### Sums over a field, by the indices of the whole payload -/

/-- Nibble `i` of a field is nibble `a + i` of the list the field was cut from. -/
theorem getD_field (p : List Nibble) (a : Nat) {n i : Nat} (hi : i < n) :
    ((p.drop a).take n).getD i 0#4 = p.getD (a + i) 0#4 := by
  rw [List.getD_eq_getElem?_getD, List.getElem?_take_of_lt hi, List.getElem?_drop, List.getD_eq_getElem?_getD]

/-- The nibbles of a field inside `p`, summed by their index in `p`. -/
theorem nibbleSum_field {p : List Nibble} {a n : Nat} (h : a + n ≤ p.length) :
    nibbleSum ((p.drop a).take n) = ∑ i ∈ Finset.range n, (p.getD (a + i) 0#4).toNat := by
  have hlen : ((p.drop a).take n).length = n := by
    rw [List.length_take, List.length_drop]
    omega
  rw [nibbleSum_sum, hlen]
  refine Finset.sum_congr rfl fun i hi => ?_
  rw [getD_field p a (Finset.mem_range.1 hi)]

/-- The bytes of the first `n` nibbles of `p`, summed by their index in `p`; for odd `n` the last nibble is in no byte (R103). -/
theorem byteSum_take {p : List Nibble} {n : Nat} (h : n ≤ p.length) :
    byteSum (p.take n) =
      ∑ j ∈ Finset.range (n / 2), (16 * (p.getD (2 * j) 0#4).toNat + (p.getD (2 * j + 1) 0#4).toNat) := by
  rw [byteSum_sum (n / 2) _ (by rw [List.length_take_of_le h])]
  refine Finset.sum_congr rfl fun j hj => ?_
  have hpair : 2 * j + 1 < n := by
    have := Finset.mem_range.1 hj
    omega
  have hhigh := getD_field p 0 (Nat.lt_of_succ_lt hpair)
  have hlow := getD_field p 0 hpair
  rw [List.drop_zero, Nat.zero_add] at hhigh hlow
  rw [hhigh, hlow]

/-! ### The three algorithms on a payload of `len` nibbles -/

/-- `SUMA` leaves out the first nibble and the last (R104). -/
theorem sumA_eq_ofNat_sum {p : List Nibble} {len : Nat} (hp : p.length = len) (h2 : 2 ≤ len) :
    sumA p len = BitVec.ofNat 8 (∑ i ∈ Finset.range (len - 2), (p.getD (i + 1) 0#4).toNat) := by
  rw [sumA, nibbleSum_field (by omega)]
  simp only [Nat.add_comm 1]

/-- `SUMN` leaves out the last two nibbles (R102). -/
theorem sumN_eq_ofNat_sum {p : List Nibble} {len : Nat} (hp : p.length = len) :
    sumN p len = BitVec.ofNat 8 (∑ i ∈ Finset.range (len - 2), (p.getD i 0#4).toNat) := by
  have hsum := nibbleSum_field (p := p) (a := 0) (n := len - 2) (by omega)
  simp only [List.drop_zero, Nat.zero_add] at hsum
  rw [sumN, hsum]

/-- `SUMB` takes the bytes that lie wholly before the last two nibbles (R103). -/
theorem sumB_eq_ofNat_sum {p : List Nibble} {len : Nat} (hp : p.length = len) :
    sumB p len = BitVec.ofNat 8
      (∑ j ∈ Finset.range ((len - 2) / 2), (16 * (p.getD (2 * j) 0#4).toNat + (p.getD (2 * j + 1) 0#4).toNat)) := by
  rw [sumB, byteSum_take (by omega)]

/-! ### The answer of `CKSUM` -/

/-- A number cut to 8 bits shows on the data bus mod 256 (R62). -/
theorem toData_ofNat_eight (v : Nat) : toData (BitVec.ofNat 8 v) = BitVec.ofNat 85 (v % 256) := by
  rw [← toData_ofNat 8 (v % 256) (Nat.mod_lt v (by decide)) (by decide)]
  exact congrArg toData (BitVec.eq_of_toNat_eq (by simp only [BitVec.toNat_ofNat]; omega))

/-- The meaning of `CKSUM` in the command table. -/
theorem exec_cksum (s : State) : exec .cksum s = execCksum s := rfl

/-- With a payload `CKSUM` answers the checksum of the whole buffer, and nothing else changes (R101). -/
theorem exec_cksum_of_ready {s : State} (hl : s.cfg.legal = true) (hp : s.hasPayload = true) (hlen : s.ppos = s.cfg.len) :
    exec .cksum s = .next (s.withResponse ⟨.ok, toData (checksum s.cfg s.pbuf)⟩) := by
  have hwhole : (s.pbuf.drop 0).take s.cfg.len = s.pbuf := List.take_of_length_le hlen.le
  rw [exec_cksum, execCksum, onLane_of_legal hl, readField_ok hp hlen (Nat.zero_add _).le, hwhole]

/-- Settles O39: `CKSUM` answers `checksum`, and each algorithm is the sum over its own indices. -/
theorem cksumAnswersSelectedSum : Obligations.CksumAnswersSelectedSum := by
  intro s hl hp hlen
  obtain ⟨-, h2, -⟩ := legal_iff.1 hl
  rw [exec_cksum_of_ready hl hp hlen, checksum]
  cases s.cfg.cksel with
  | suma => simp only [sumA_eq_ofNat_sum hlen h2, toData_ofNat_eight]; rfl
  | sumn => simp only [sumN_eq_ofNat_sum hlen, toData_ofNat_eight]; rfl
  | sumb => simp only [sumB_eq_ofNat_sum hlen, toData_ofNat_eight]; rfl

end Sys2Proof.Machine
end

section
/-! PROOFS. The range of a BCD field (R113): the value by the greatest digit, and its exact 32-bit result. -/

namespace Sys2Proof.Machine

/-- The geometric bound of a BCD field whose digits are at most `d`: `v ≤ d · (10^n − 1)/9`, with `9` and `d` moved across so
that nothing is divided or subtracted. -/
theorem bcdValue_le_of_digits_le {d : Nat} {l : List Nibble} (hd : ∀ n ∈ l, n.toNat ≤ d) :
    9 * bcdValue l + d ≤ d * 10 ^ l.length := by
  induction l with
  | nil => simp [bcdValue, baseValue]
  | cons n r ih =>
    obtain ⟨hn, hr⟩ := List.forall_mem_cons.1 hd
    have htop : n.toNat * 10 ^ r.length ≤ d * 10 ^ r.length := Nat.mul_le_mul_right _ hn
    have hrest : 9 * baseValue 10 r + d ≤ d * 10 ^ r.length := ih hr
    rw [bcdValue, baseValue_cons, List.length_cons, pow_succ, ← mul_assoc]
    omega

/-- A nibble is at most 15, so every BCD field has the bound of R113. -/
theorem nine_mul_bcdValue_le (l : List Nibble) : 9 * bcdValue l ≤ 15 * (10 ^ l.length - 1) := by
  have hbound := bcdValue_le_of_digits_le (l := l) fun n _ => Nat.le_of_lt_succ n.isLt
  omega

/-- Proper digits stay below `10^n`. -/
theorem bcdValue_lt_of_proper {l : List Nibble} (hl : ∀ n ∈ l, n.toNat ≤ 9) : bcdValue l < 10 ^ l.length :=
  baseValue_lt 10 l fun n hn => Nat.lt_succ_of_le (hl n hn)

/-- A field of at most 8 nibbles, the longest a command admits (R67), is below `2^31`: `15 · (10^8 − 1)/9 = 166 666 665`. -/
theorem bcdValue_lt_two_pow_31 {l : List Nibble} (hl : l.length ≤ 8) : bcdValue l < 2 ^ 31 := by
  have hbound := nine_mul_bcdValue_le l
  have hpow : 10 ^ l.length ≤ 10 ^ 8 := Nat.pow_le_pow_right (by decide) hl
  omega

/-- The sign leaves the magnitude of the field as it is (R110). -/
@[simp] theorem signedBcd_natAbs (l : List Nibble) (neg : Bool) : (signedBcd l neg).natAbs = bcdValue l := by
  cases neg <;> simp [signedBcd]

/-- Settles O38: both bounds speak of the magnitude, which is `bcdValue`, and a magnitude below `2^31` fits 32 bits with either
sign. -/
theorem bcdRangeFitsThirtyTwoBits : Obligations.BcdRangeFitsThirtyTwoBits := by
  intro l neg
  have habs := signedBcd_natAbs l neg
  refine ⟨?_, fun hproper => ?_, fun hlen => ?_⟩
  · rw [habs]
    exact nine_mul_bcdValue_le l
  · rw [habs]
    exact Nat.le_sub_one_of_lt (bcdValue_lt_of_proper hproper)
  · have hsmall := bcdValue_lt_two_pow_31 hlen
    exact BitVec.toInt_ofInt_eq_self (by decide) (by omega) (by omega)

end Sys2Proof.Machine
end

section
/-! PROOFS. `DECODE` (R115 to R128): the reading on the data bus, what the command answers, and the fields of each layout as
numbers. -/

namespace Sys2Proof.Machine

/-! ### The reading on the data bus -/

/-- The number of a packed reading: each field weighted by the place of its lowest bit (R128). -/
theorem packReading_toNat (r : Reading) :
    (packReading r).toNat = r.protocolVersion.toNat + 2 ^ 2 * r.deviceId.toNat + 2 ^ 18 * r.calculatedChecksum.toNat +
      2 ^ 26 * r.checksum.toNat + 2 ^ 34 * r.rollingCode.toNat + 2 ^ 42 * r.humidity.toNat + 2 ^ 58 * r.celsius.toNat +
      2 ^ 74 * r.batteryLow.toNat + 2 ^ 75 * r.flags.toNat + 2 ^ 81 * r.channel.toNat := by
  simp only [packReading, append_toNat, BitVec.toNat_ofBool]
  ring

/-- A field of a vector is found by dividing the vector's number. -/
theorem extractLsb'_eq_of_div_mod {n lo len : Nat} {x : BitVec n} {v : BitVec len}
    (h : x.toNat / 2 ^ lo % 2 ^ len = v.toNat) : x.extractLsb' lo len = v :=
  BitVec.eq_of_toNat_eq (by rw [BitVec.extractLsb'_toNat, Nat.shiftRight_eq_div_pow, h])

/-- Settles O41: in the number of the packed reading the fields below a place sum to less than its weight, so dividing by the
weight leaves the field at that place. -/
theorem packPlacesEveryField : Obligations.PackPlacesEveryField := by
  intro r
  have hpack := packReading_toNat r
  have hversion := r.protocolVersion.isLt
  have hdevice := r.deviceId.isLt
  have hcalculated := r.calculatedChecksum.isLt
  have hchecksum := r.checksum.isLt
  have hrolling := r.rollingCode.isLt
  have hhumidity := r.humidity.isLt
  have hcelsius := r.celsius.isLt
  have hbattery := r.batteryLow.toNat_le
  have hflags := r.flags.isLt
  have hchannel := r.channel.isLt
  have hlow : (packReading r).getLsbD 74 = r.batteryLow := by
    have hbit : (packReading r).toNat / 2 ^ 74 % 2 = r.batteryLow.toNat := by omega
    rw [getLsbD_nat, hbit]
    cases r.batteryLow <;> rfl
  refine ⟨?_, ?_, ?_, ?_, ?_, ?_, ?_, hlow, ?_, ?_⟩ <;> apply extractLsb'_eq_of_div_mod <;> omega

/-! ### The answer of `DECODE` -/

/-- The meaning of `DECODE` in the command table. -/
theorem exec_decode (s : State) : exec .decode s = execDecode s := rfl

/-- With a payload long enough for the layout `DECODE` answers the packed reading of the whole buffer, and nothing else changes
(R115, R125). -/
theorem exec_decode_of_ready {s : State} (hl : s.cfg.legal = true) (hp : s.hasPayload = true) (hlen : s.ppos = s.cfg.len)
    (hneed : need s.cfg ≤ s.cfg.len) :
    exec .decode s = .next
      (s.withResponse ⟨.ok, packReading (readingOf s.cfg s.pbuf (Config.freeChannel s.draw s.pbuf))⟩) := by
  have hwhole : (s.pbuf.drop 0).take s.cfg.len = s.pbuf := List.take_of_length_le hlen.le
  rw [exec_decode, execDecode, onLane_of_legal hl, if_neg (by simp [hp]), if_neg hneed.not_gt,
    readField_ok hp hlen (Nat.zero_add _).le, hwhole]

/-- A `DECODE` that executes ran on a payload long enough for the layout; the other two answers are refusals (R125). -/
theorem need_le_of_exec_decode_ok {s t : State} (h : exec .decode s = .next t) (hok : t.resp.st = .ok) :
    s.cfg.legal = true ∧ s.hasPayload = true ∧ need s.cfg ≤ s.cfg.len := by
  obtain ⟨hl, hbody⟩ := onLane_next.1 h
  split_ifs at hbody with hp hneed
  · cases refuse_next.1 hbody
    cases hok
  · cases refuse_next.1 hbody
    cases hok
  · exact ⟨hl, by simpa using hp, not_lt.1 hneed⟩

/-! ### The common fields -/

/-- The embedded checksum as a number (R105). -/
theorem embeddedChecksum_toNat (s : State) :
    (embeddedChecksum s.cfg s.pbuf).toNat = 16 * nibbleNum s (s.cfg.len - 2) + nibbleNum s (s.cfg.len - 1) := by
  rw [embeddedChecksum, append_toNat, mul_comm]
  rfl

/-- Settles O45: the three fields are those `readingOf_common` gives for every layout, and `CKSUM` answers the second of them. -/
theorem decodeCarriesBothChecksums : Obligations.DecodeCarriesBothChecksums := by
  intro s t u hlen hdecode hok hcksum
  obtain ⟨hl, hp, hneed⟩ := need_le_of_exec_decode_ok hdecode hok
  rw [exec_decode_of_ready hl hp hlen hneed] at hdecode
  rw [exec_cksum_of_ready hl hp hlen] at hcksum
  cases hdecode
  cases hcksum
  obtain ⟨hembedded, hcalculated, hversion⟩ := readingOf_common s.cfg s.pbuf (Config.freeChannel s.draw s.pbuf)
  obtain ⟨versionAt, -, calculatedAt, checksumAt, -⟩ :=
    packPlacesEveryField (readingOf s.cfg s.pbuf (Config.freeChannel s.draw s.pbuf))
  have hdata : (toData (checksum s.cfg s.pbuf)).extractLsb' 0 8 = checksum s.cfg s.pbuf :=
    extractLsb'_eq_of_div_mod (by rw [toData, BitVec.toNat_setWidth]; omega)
  exact ⟨(congrArg BitVec.toNat (checksumAt.trans hembedded)).trans (embeddedChecksum_toNat s),
    (calculatedAt.trans hcalculated).trans hdata.symm, versionAt.trans hversion⟩

/-! ### The fields of the layouts as numbers -/

/-- The truth of a value masked with one bit is that bit (R16). -/
theorem nonzero_and_twoPow {n k : Nat} (hk : k < n) (v : BitVec n) :
    nonzero (v &&& BitVec.twoPow n k) = true ↔ v.toNat / 2 ^ k % 2 = 1 := by
  have hne : BitVec.twoPow n k ≠ 0#n := fun h => by simpa [hk] using congrArg (BitVec.getLsbD · k) h
  rw [nonzero, BitVec.and_twoPow, getLsbD_nat]
  split_ifs with hbit
  · simpa [hne] using hbit
  · simpa using hbit

/-- The battery bit of layouts v2 and v3 is bit 2 of `flags` (R121, R123). -/
theorem batteryLowV2_iff (flags : BitVec 6) : batteryLowV2 flags = true ↔ flags.toNat / 4 % 2 = 1 :=
  nonzero_and_twoPow (k := 2) (by decide) flags

/-- The sign of layouts v2 and v3 is any value of nibble 11 but 0 (R121). -/
theorem negativeV2_iff (n11 : Nibble) : negativeV2 n11 = true ↔ n11.toNat ≠ 0 := by
  rw [negativeV2, nonzero, decide_eq_true_iff, ne_eq, ← BitVec.toNat_inj]
  rfl

/-- The flags of layout v1: the low two bits of nibble 1 above the four of nibble 5 (R118). -/
theorem flagsV1_toNat (n1 n5 : Nibble) : (flagsV1 n1 n5).toNat = n1.toNat % 4 * 16 + n5.toNat := by
  revert n1 n5
  decide

/-- The battery bit of layout v1 is bit 3 of the flags, which is bit 3 of nibble 5 (R118). -/
theorem batteryLowV1_iff (n1 n5 : Nibble) : batteryLowV1 (flagsV1 n1 n5) = true ↔ n5.toNat / 8 % 2 = 1 := by
  have hbit := nonzero_and_twoPow (k := 3) (by decide) (flagsV1 n1 n5)
  rw [flagsV1_toNat] at hbit
  exact hbit.trans (by omega)

/-- The sign of layout v1 is bit 1 of the flags, which is bit 1 of nibble 5 (R119). -/
theorem negativeV1_iff (n1 n5 : Nibble) : negativeV1 (flagsV1 n1 n5) = true ↔ n5.toNat / 2 % 2 = 1 := by
  have hbit := nonzero_and_twoPow (k := 1) (by decide) (flagsV1 n1 n5)
  rw [flagsV1_toNat] at hbit
  exact hbit.trans (by omega)

/-- No digits have the value 0. -/
@[simp] theorem bcdValue_nil : bcdValue [] = 0 := rfl

/-- The first digit is the most significant one (R45). -/
@[simp] theorem bcdValue_cons (n : Nibble) (l : List Nibble) :
    bcdValue (n :: l) = n.toNat * 10 ^ l.length + bcdValue l := baseValue_cons 10 n l

/-- The temperature of three digits: 16 bits hold the greatest of them with either sign (R113, R119, R121). -/
theorem celsiusOf_three {a b c : Nibble} {neg : Bool} {P : Prop} [Decidable P] (hneg : neg = true ↔ P) :
    (celsiusOf [a, b, c] neg).toInt = (if P then -1 else 1) * (100 * a.toNat + 10 * b.toNat + c.toNat : ℕ) := by
  have hvalue : bcdValue [a, b, c] = 100 * a.toNat + 10 * b.toNat + c.toNat := by
    simp only [bcdValue_cons, bcdValue_nil, List.length_cons, List.length_nil]
    omega
  have hbound : 9 * bcdValue [a, b, c] ≤ 15 * (10 ^ 3 - 1) := nine_mul_bcdValue_le _
  have habs := signedBcd_natAbs [a, b, c] neg
  have hfits : (celsiusOf [a, b, c] neg).toInt = signedBcd [a, b, c] neg :=
    BitVec.toInt_ofInt_eq_self (by decide) (by omega) (by omega)
  rw [hfits, ← hvalue, signedBcd]
  simp only [hneg, neg_mul, one_mul, ite_mul]

/-- The device id is the number of the first four nibbles, masked (R120). -/
theorem deviceIdOf_toNat (p : List Nibble) :
    (deviceIdOf p).toNat = (4096 * (nibbleOf p 0).toNat + 256 * (nibbleOf p 1).toNat + 16 * (nibbleOf p 2).toNat +
      (nibbleOf p 3).toNat) &&& 0xFFCF := by
  rw [deviceIdOf, BitVec.toNat_and]
  congr 1
  simp only [append_toNat]
  ring

/-- The channel of layout v2 is the index of the highest set bit of nibble 4, where that nibble is not 0 (R120). -/
theorem channelV2_highest_bit {n4 : Nibble} (free : Nibble) (h : n4.toNat ≠ 0) :
    2 ^ (channelV2 n4 free).toNat ≤ n4.toNat ∧ n4.toNat < 2 ^ ((channelV2 n4 free).toNat + 1) := by
  have hne : n4 ≠ 0#4 := fun h0 => h (congrArg BitVec.toNat h0)
  have hbitlen : bitlen n4.toNat = Nat.log2 n4.toNat + 1 := if_neg h
  have hle : bitlen n4.toNat ≤ 4 := bitlen_le n4.isLt
  have hchannel : (channelV2 n4 free).toNat = Nat.log2 n4.toNat := by
    rw [channelV2, if_neg hne, BitVec.toNat_ofNat]
    omega
  rw [hchannel]
  exact ⟨Nat.log2_self_le h, Nat.lt_log2_self⟩

/-- A field of at least one nibble, cut from inside the payload, starts with the nibble at its index. -/
theorem take_succ_drop {p : List Nibble} {i : Nat} (h : i < p.length) (n : Nat) :
    (p.drop i).take (n + 1) = nibbleOf p i :: (p.drop (i + 1)).take n := by
  rw [List.drop_eq_getElem_cons h, List.take_succ_cons, nibbleOf, List.getD_eq_getElem p 0#4 h]

/-- The humidity of one digit: 16 bits hold ten times the greatest (R124). -/
theorem humidityV3_one {c : LaneConfig} {p : List Nibble} (hd : c.humpl = .one) (h : 12 < p.length) :
    (humidityV3 c p).toNat = 10 * (nibbleOf p 12).toNat := by
  have h12 := (nibbleOf p 12).isLt
  have hfield : (p.drop 12).take c.humpl.places = [nibbleOf p 12] := by
    rw [hd, HumidityDigits.places, take_succ_drop h, List.take_zero]
  rw [humidityV3, hfield, BitVec.toNat_ofNat]
  simp only [bcdValue_cons, bcdValue_nil, List.length_nil]
  omega

/-- The humidity of two digits: 16 bits hold ten times the greatest (R124). -/
theorem humidityV3_two {c : LaneConfig} {p : List Nibble} (hd : c.humpl = .two) (h : 13 < p.length) :
    (humidityV3 c p).toNat = 10 * (10 * (nibbleOf p 12).toNat + (nibbleOf p 13).toNat) := by
  have h12 := (nibbleOf p 12).isLt
  have h13 := (nibbleOf p 13).isLt
  have hfield : (p.drop 12).take c.humpl.places = [nibbleOf p 12, nibbleOf p 13] := by
    rw [hd, HumidityDigits.places, take_succ_drop (Nat.lt_of_succ_lt h), take_succ_drop h, List.take_zero]
  rw [humidityV3, hfield, BitVec.toNat_ofNat]
  simp only [bcdValue_cons, bcdValue_nil, List.length_cons, List.length_nil]
  omega

/-- The fields layouts v2 and v3 share, as numbers (R120 to R123). -/
theorem layoutV2V3_fields (c : LaneConfig) (p : List Nibble) (channel : Nibble) (humidity : BitVec 16) :
    (layoutV2V3 c p channel humidity).flags.toNat = (nibbleOf p 7).toNat ∧
    ((layoutV2V3 c p channel humidity).batteryLow = true ↔ (nibbleOf p 7).toNat / 4 % 2 = 1) ∧
    (layoutV2V3 c p channel humidity).celsius.toInt = (if (nibbleOf p 11).toNat ≠ 0 then -1 else 1) *
      (100 * (nibbleOf p 8).toNat + 10 * (nibbleOf p 9).toNat + (nibbleOf p 10).toNat : ℕ) ∧
    (layoutV2V3 c p channel humidity).rollingCode.toNat = 16 * (nibbleOf p 5).toNat + (nibbleOf p 6).toNat := by
  have hflags : ((nibbleOf p 7).setWidth 6).toNat = (nibbleOf p 7).toNat := BitVec.toNat_setWidth_of_le (by decide)
  refine ⟨hflags, ?_, celsiusOf_three (negativeV2_iff _), ?_⟩
  · rw [← hflags]
    exact batteryLowV2_iff _
  · exact (append_toNat _ _).trans (by omega)

/-! ### The three layouts -/

/-- Settles O42: the flags are one number of nibbles 1 and 5, and the battery bit and the sign are bits of it. -/
theorem decodeV1Reading : Obligations.DecodeV1Reading := by
  intro s hl hp hlen hv hneed
  have hreading := exec_decode_of_ready hl hp hlen (by simpa only [need, hv] using hneed)
  rw [readingOf, hv] at hreading
  exact ⟨_, hreading, Nat.shiftRight_eq_div_pow _ 2, flagsV1_toNat _ _, batteryLowV1_iff _ _,
    celsiusOf_three (negativeV1_iff _ _), rfl, BitVec.toNat_setWidth_of_le (by decide), rfl⟩

/-- Settles O43: the shared fields, and the channel as the highest set bit of nibble 4. -/
theorem decodeV2Reading : Obligations.DecodeV2Reading := by
  intro s hl hp hlen hv hneed
  have hreading := exec_decode_of_ready hl hp hlen (by simpa only [need, hv] using hneed)
  rw [readingOf, hv] at hreading
  obtain ⟨hflags, hbattery, hcelsius, hrolling⟩ := layoutV2V3_fields s.cfg s.pbuf
    (channelV2 (nibbleOf s.pbuf 4) (Config.freeChannel s.draw s.pbuf)) 0#16
  exact ⟨_, hreading, channelV2_highest_bit _, deviceIdOf_toNat _, hflags, hbattery, hcelsius, rfl, hrolling⟩

/-- Settles O44: the shared fields, nibble 4 as the channel, and the humidity of `HUMPL` digits. -/
theorem decodeV3Reading : Obligations.DecodeV3Reading := by
  intro s hl hp hlen hv hneed
  have hreading := exec_decode_of_ready hl hp hlen (by simpa only [need, hv] using hneed)
  rw [readingOf, hv] at hreading
  obtain ⟨hflags, hbattery, hcelsius, hrolling⟩ :=
    layoutV2V3_fields s.cfg s.pbuf (nibbleOf s.pbuf 4) (humidityV3 s.cfg s.pbuf)
  refine ⟨_, hreading, rfl, deviceIdOf_toNat _, hflags, hbattery, hcelsius, hrolling, ?_⟩
  have hinside : 12 + s.cfg.humpl.places ≤ s.pbuf.length := hneed.trans hlen.ge
  cases hd : s.cfg.humpl with
  | one => exact humidityV3_one hd (by rwa [hd] at hinside)
  | two => exact humidityV3_two hd (by rwa [hd] at hinside)

end Sys2Proof.Machine
end

section
/-! PROOFS. The rejected edge as R133 words it: the pulse class and the phase that make an edge yield no bit. -/

namespace Sys2Proof.Machine

/-- An invalid pulse yields no bit, and neither does a `Half` in AwaitingSecondHalf, where only a `Full` would (R80, R133). -/
theorem not_yieldsBit_of_rejected {s : State} {d : Duration}
    (h : classify s.cfg d = .invalid ∨ (s.phase = .ash ∧ classify s.cfg d = .half)) : ¬ YieldsBit s d := by
  rintro ⟨hvalid, hyields⟩
  obtain hinvalid | ⟨hash, hhalf⟩ := h
  · exact hvalid hinvalid
  · simp [hash, hhalf] at hyields

/-- Settles O14: a rejected edge yields no bit, and such an edge writes `PHASE` and the response alone. -/
theorem rejectedEdgeChangesPhaseOnly : Obligations.RejectedEdgeChangesPhaseOnly := by
  intro s d level hl hrej
  exact exec_edge_of_not_yieldsBit level hl (not_yieldsBit_of_rejected hrej)

end Sys2Proof.Machine
end

section
/-! PROOFS. The fill target by the rate of the lane (R91), and the completion check at it. -/

namespace Sys2Proof.Machine

/-- A single-rate fill ends at `PAYLEN` nibbles (R91). -/
theorem fillTarget_single {c : LaneConfig} (hd : c.dbl = false) : c.fillTarget = c.len := by simp [LaneConfig.fillTarget, hd]

/-- A double-rate fill ends at twice as many (R91). -/
theorem fillTarget_double {c : LaneConfig} (hd : c.dbl = true) : c.fillTarget = 2 * c.len := by
  simp [LaneConfig.fillTarget, hd]

/-- At the fill target of a single-rate lane the payload is ready as it stands (R91). -/
theorem completionCheck_single {s : State} (hd : s.cfg.dbl = false) (hat : s.ppos = s.cfg.len) :
    completionCheck s = s.markReady := by simp [completionCheck, fillTarget_single hd, hd, hat]

/-- At the fill target of a double-rate lane the raw nibbles are compacted (R91). -/
theorem completionCheck_double {s : State} (hd : s.cfg.dbl = true) (hat : s.ppos = 2 * s.cfg.len) :
    completionCheck s = (s.withPbuf (compact s.cfg.ctap s.pbuf)).markReady := by
  simp [completionCheck, fillTarget_double hd, hd, hat]

/-- The fill targets of both rates lie inside the buffer (R91). -/
theorem len_le_capacity {c : LaneConfig} (hl : c.legal = true) :
    (c.dbl = false → c.len ≤ capacity) ∧ (c.dbl = true → 2 * c.len ≤ capacity) := by
  have htarget : c.fillTarget ≤ capacity := (fillTarget_le hl).1
  exact ⟨fun hd => fillTarget_single hd ▸ htarget, fun hd => fillTarget_double hd ▸ htarget⟩

/-- An appended nibble advances `PPOS` by one (R34). -/
theorem State.ppos_withPbuf_append (s : State) (v : Nibble) : (s.withPbuf (s.pbuf ++ [v])).ppos = s.ppos + 1 :=
  List.length_append

end Sys2Proof.Machine
end

section
/-! PROOFS. The frame of `EDGE`: what a recovered bit, and so an edge, leaves unchanged (R85 to R93). -/

namespace Sys2Proof.Machine

/-- What an edge leaves unchanged from `s` to `t`, rejected or not, part by part of the state. -/
structure EdgeKeeps (s t : State) : Prop where
  wiring : t.cfg = s.cfg ∧ t.port = s.port
  ready : s.hasPayload = true → t = { s with phase := t.phase, resp := t.resp }
  synced : s.synced = true → t.sr = s.sr ∧ t.synced = true
  unsynced : s.synced = false → t.hasPayload = s.hasPayload ∧ t.draw = s.draw
  draw : t.hasPayload = s.hasPayload → t.draw = s.draw
  unmatched : s.synced = false → t.synced = false → t.pbuf = s.pbuf ∧ t.nib = s.nib ∧ t.nibpos = s.nibpos
  assembling : s.synced = true → s.nibpos ≠ 3#2 → ∀ a, t.nibbleAt a = s.nibbleAt a
  appending : s.synced = true → (t.hasPayload = false ∨ s.cfg.dbl = false) → ∀ a ≠ s.ppos, t.nibbleAt a = s.nibbleAt a

/-- Writing `PHASE` and the response keeps everything else. -/
theorem EdgeKeeps.of_phase (s : State) (p : Phase) (r : Response) : EdgeKeeps s ((s.withPhase p).withResponse r) where
  wiring := ⟨rfl, rfl⟩
  ready _ := rfl
  synced h := ⟨rfl, h⟩
  unsynced _ := ⟨rfl, rfl⟩
  draw _ := rfl
  unmatched _ _ := ⟨rfl, rfl, rfl⟩
  assembling _ _ _ := rfl
  appending _ _ _ _ := rfl

/-- The phase before and the response after an edge are outside its frame. -/
theorem EdgeKeeps.withResponse_of_withPhase {s u : State} {p : Phase} (h : EdgeKeeps (s.withPhase p) u) (r : Response) :
    EdgeKeeps s (u.withResponse r) where
  wiring := h.wiring
  ready hp := congrArg (·.withResponse r) (h.ready hp)
  synced := h.synced
  unsynced := h.unsynced
  draw := h.draw
  unmatched := h.unmatched
  assembling := h.assembling
  appending := h.appending

/-- What is left of the frame while unsynced: the sync matcher keeps `HASPAYLOAD` and the draw. -/
theorem EdgeKeeps.of_unsynced {s t : State} (hp : s.hasPayload = false) (hs : s.synced = false)
    (hwiring : t.cfg = s.cfg ∧ t.port = s.port) (hkept : t.hasPayload = s.hasPayload ∧ t.draw = s.draw)
    (hunmatched : t.synced = false → t.pbuf = s.pbuf ∧ t.nib = s.nib ∧ t.nibpos = s.nibpos) : EdgeKeeps s t where
  wiring := hwiring
  ready := by simp [hp]
  synced := by simp [hs]
  unsynced _ := hkept
  draw _ := hkept.2
  unmatched _ := hunmatched
  assembling := by simp [hs]
  appending := by simp [hs]

/-- What is left of the frame in a fill: the nibble assembler keeps the sync register and `SYNCED`. -/
theorem EdgeKeeps.of_filling {s t : State} (hp : s.hasPayload = false) (hs : s.synced = true)
    (hwiring : t.cfg = s.cfg ∧ t.port = s.port) (hsync : t.sr = s.sr ∧ t.synced = s.synced)
    (hdraw : t.hasPayload = false → t.draw = s.draw)
    (hassembling : s.nibpos ≠ 3#2 → ∀ a, t.nibbleAt a = s.nibbleAt a)
    (happending : t.hasPayload = false ∨ s.cfg.dbl = false → ∀ a ≠ s.ppos, t.nibbleAt a = s.nibbleAt a) :
    EdgeKeeps s t where
  wiring := hwiring
  ready := by simp [hp]
  synced _ := ⟨hsync.1, hsync.2.trans hs⟩
  unsynced := by simp [hs]
  draw := by rwa [hp]
  unmatched := by simp [hs]
  assembling _ := hassembling
  appending _ := happending

/-- The Unsynced step keeps the buffer and the cursors without a match (R87, R89). -/
theorem edgeKeeps_unsyncedStep {s : State} (b : Bool) (hp : s.hasPayload = false) (hs : s.synced = false) :
    EdgeKeeps s (unsyncedStep b s) := by
  obtain ⟨-, hstep⟩ | ⟨-, hstep⟩ := unsyncedStep_cases b s <;> rw [hstep]
  · exact .of_unsynced hp hs ⟨rfl, rfl⟩ ⟨rfl, rfl⟩ (by simp)
  · exact .of_unsynced hp hs ⟨rfl, rfl⟩ ⟨rfl, rfl⟩ fun _ => ⟨rfl, rfl, rfl⟩

/-- The fourth bit of a nibble keeps every nibble but the one at `PPOS`, unless it compacts (R90 to R92). -/
theorem edgeKeeps_append_completionCheck {s : State} (v : Nibble) (hp : s.hasPayload = false) (hs : s.synced = true)
    (hn : s.nibpos = 3#2) :
    EdgeKeeps s (completionCheck ((s.withPbuf (s.pbuf ++ [v])).withNibble 0#4 0#2)) := by
  have happend : ∀ a ≠ s.ppos, (s.pbuf ++ [v])[a]? = s.pbuf[a]? := fun a => getElem?_append_of_ne
  obtain ⟨-, hstep⟩ | ⟨-, -, hstep⟩ | ⟨-, hd, hstep⟩ :=
    completionCheck_cases ((s.withPbuf (s.pbuf ++ [v])).withNibble 0#4 0#2) <;> rw [hstep]
  · exact .of_filling hp hs ⟨rfl, rfl⟩ ⟨rfl, rfl⟩ (fun _ => rfl) (absurd hn) fun _ => happend
  · exact .of_filling hp hs ⟨rfl, rfl⟩ ⟨rfl, rfl⟩ (by simp) (absurd hn) fun _ => happend
  · have hdbl : s.cfg.dbl = true := hd
    exact .of_filling hp hs ⟨rfl, rfl⟩ ⟨rfl, rfl⟩ (by simp) (absurd hn) (by simp [hdbl])

/-- The Filling step keeps all nibbles where it only assembles (R90). -/
theorem edgeKeeps_fillingStep {s t : State} {b : Bool} (hp : s.hasPayload = false) (hs : s.synced = true)
    (ht : fillingStep b s = some t) : EdgeKeeps s t := by
  obtain ⟨-, rfl⟩ | ⟨hn, -, rfl⟩ := fillingStep_some ht
  · exact .of_filling hp hs ⟨rfl, rfl⟩ ⟨rfl, rfl⟩ (fun _ => rfl) (fun _ _ => rfl) fun _ _ _ => rfl
  · exact edgeKeeps_append_completionCheck _ hp hs hn

/-- A recovered bit keeps the frame, whatever takes it (R85). -/
theorem edgeKeeps_ingestBit {s t : State} {b : Bool} (ht : ingestBit b s = some t) : EdgeKeeps s t := by
  obtain ⟨-, rfl⟩ | ⟨hp, hs, hfill⟩ | ⟨hp, hs, rfl⟩ := ingestBit_some ht
  · exact EdgeKeeps.of_phase _ _ _
  · exact edgeKeeps_fillingStep hp hs hfill
  · exact edgeKeeps_unsyncedStep b hp hs

/-- An edge keeps the frame, and a rejected one everything but `PHASE` (R85, R133). -/
theorem exec_edge_keeps {s t : State} {d : Duration} {level : Bool} (h : exec (.edge d level) s = .next t) :
    EdgeKeeps s t ∧ (¬ YieldsBit s d → t = { s with phase := t.phase, resp := t.resp }) := by
  obtain ⟨-, ⟨-, rfl⟩ | ⟨hy, u, hu, rfl⟩⟩ := execEdge_next h
  · exact ⟨EdgeKeeps.of_phase _ _ _, fun _ => rfl⟩
  · exact ⟨(edgeKeeps_ingestBit hu).withResponse_of_withPhase _, fun hno => absurd hy hno⟩

/-- Settles O23: the clause on rejected and ready edges joins two parts of the frame, the others are one part each. -/
theorem edgeFrame : Obligations.EdgeFrame := by
  intro s t d level h
  obtain ⟨hkeeps, hrejected⟩ := exec_edge_keeps h
  exact ⟨hkeeps.wiring.1, hkeeps.wiring.2, fun hno => hno.elim hrejected hkeeps.ready, hkeeps.synced, hkeeps.unsynced,
    hkeeps.draw, hkeeps.unmatched, hkeeps.assembling, hkeeps.appending⟩

end Sys2Proof.Machine
end

section
/-! PROOFS. The invariants of a legal lane (R39): kept by every recovered bit, every command and every step, so that no run
stops. -/

namespace Sys2Proof.Machine

/-! ### The invariants in the two halves of the synchroniser -/

/-- The invariants read neither `PHASE` nor the response, the port and the draw counter. -/
theorem Inv.of_unread {s : State} (h : Inv s) (p : Phase) (r : Response) (q : List CommandWord) (k : Nat) :
    Inv { s with phase := p, resp := r, port := q, draw := k } where
  legal := h.legal
  filling_below := h.filling_below
  ready_len := h.ready_len
  ready_synced := h.ready_synced
  unsynced_empty := h.unsynced_empty
  sr_window := h.sr_window
  nib_window := h.nib_window
  ready_nib := h.ready_nib
  synced_sr := h.synced_sr

theorem Inv.withPhase {s : State} (h : Inv s) (p : Phase) : Inv (s.withPhase p) := h.of_unread p s.resp s.port s.draw
theorem Inv.withResponse {s : State} (h : Inv s) (r : Response) : Inv (s.withResponse r) :=
  h.of_unread s.phase r s.port s.draw
theorem Inv.withPort {s : State} (h : Inv s) (q : List CommandWord) : Inv (s.withPort q) :=
  h.of_unread s.phase s.resp q s.draw

/-- What is left of the invariants while unsynced (R39 items 5 and 6, R88). -/
theorem Inv.of_unsynced {s : State} (hl : s.cfg.legal = true) (hs : s.synced = false) (hp : s.hasPayload = false)
    (hempty : s.pbuf = [] ∧ s.nib = 0#4 ∧ s.nibpos = 0#2) (hwindow : s.sr.toNat < 2 ^ s.cfg.synclen)
    (hmiss : s.sr ≠ s.cfg.syncpat) : Inv s where
  legal := hl
  filling_below _ := by
    have hpos := (fillTarget_le hl).2
    rw [State.ppos, hempty.1, List.length_nil]
    omega
  ready_len := by simp [hp]
  ready_synced := by simp [hp]
  unsynced_empty _ := hempty
  sr_window := hwindow
  nib_window := by simp [hempty]
  ready_nib := by simp [hp]
  synced_sr := by simp [hs, hmiss]

/-- What is left of the invariants while synced: the register keeps the pattern, which fits its window (R22, R89). -/
theorem Inv.of_synced {s : State} (hl : s.cfg.legal = true) (hs : s.synced = true) (hsr : s.sr = s.cfg.syncpat)
    (hnib : s.nib.toNat < 2 ^ s.nibpos.toNat) (hfilling : s.hasPayload = false → s.ppos < s.cfg.fillTarget)
    (hready : s.hasPayload = true → s.ppos = s.cfg.len ∧ s.nibpos = 0#2 ∧ s.nib = 0#4) : Inv s where
  legal := hl
  filling_below := hfilling
  ready_len hp := (hready hp).1
  ready_synced _ := hs
  unsynced_empty := by simp [hs]
  sr_window := hsr ▸ lt_bitlen _
  nib_window := hnib
  ready_nib hp := (hready hp).2
  synced_sr := iff_of_true hs hsr

/-- The pattern of a legal lane is not the empty register (R28). -/
theorem zero_ne_syncpat {c : LaneConfig} (hl : c.legal = true) : 0#64 ≠ c.syncpat := (legal_iff.1 hl).1.symm

/-- A cleared runtime keeps the invariants of a legal lane (R39, R40). -/
theorem inv_clearRuntime {s : State} (hl : s.cfg.legal = true) : Inv s.clearRuntime :=
  .of_unsynced hl rfl rfl ⟨rfl, rfl, rfl⟩ (Nat.two_pow_pos _) (zero_ne_syncpat hl)

/-- A freshly reset lane is its own cleared runtime (R40). -/
theorem State.clearRuntime_resetWith (c : LaneConfig) : (State.resetWith c).clearRuntime = State.resetWith c := rfl

/-- Settles O54: a reset state is a cleared runtime, and preset V1 is legal. -/
theorem resetKeepsInvariants : Obligations.ResetKeepsInvariants := by
  have hreset (c : LaneConfig) (hl : c.legal = true) : Inv (State.resetWith c) :=
    State.clearRuntime_resetWith c ▸ inv_clearRuntime (s := State.resetWith c) hl
  exact ⟨hreset, hreset presetV1 (by decide)⟩

/-! ### A recovered bit -/

/-- A bit assembled at `NIBPOS` fills the nibble up to `NIBPOS` (R90). -/
theorem assemble_lt {nib : BitVec 4} {p : BitVec 2} (b : Bool) (hp : p.toNat < 3) (h : nib.toNat < 2 ^ p.toNat) :
    (assemble nib p b).toNat < 2 ^ (p + 1#2).toNat := by
  revert nib p b
  decide

/-- The Unsynced step keeps the invariants: the window it keeps is not the pattern, or the fill starts (R87 to R89). -/
theorem Inv.of_unsyncedStep {s : State} (h : Inv s) (hp : s.hasPayload = false) (hs : s.synced = false) (b : Bool) :
    Inv (unsyncedStep b s) := by
  obtain ⟨-, hstep⟩ | ⟨hmiss, hstep⟩ := unsyncedStep_cases b s <;> rw [hstep]
  · have hpos := (fillTarget_le h.legal).2
    exact .of_synced h.legal rfl rfl (Nat.two_pow_pos _) (fun _ => Nat.lt_of_lt_of_le Nat.two_pos hpos) (by simp [hp])
  · have hwindow : (shiftIn s.cfg.synclen s.sr b).toNat < 2 ^ s.cfg.synclen := by
      rw [shiftIn_toNat (synclen_le s.cfg)]
      exact Nat.mod_lt _ (Nat.two_pow_pos _)
    exact .of_unsynced h.legal hs hp (h.unsynced_empty hs) hwindow hmiss

/-- The completion check keeps the invariants of a fill that has just reached or is still below its target (R91). -/
theorem inv_completionCheck {s : State} (hl : s.cfg.legal = true) (hs : s.synced = true) (hp : s.hasPayload = false)
    (hsr : s.sr = s.cfg.syncpat) (hv : s.nib = 0#4) (hn : s.nibpos = 0#2) (hle : s.ppos ≤ s.cfg.fillTarget) :
    Inv (completionCheck s) := by
  have hnib : s.nib.toNat < 2 ^ s.nibpos.toNat := by simp [hv]
  obtain ⟨hoff, hstep⟩ | ⟨hat, hd, hstep⟩ | ⟨hat, hd, hstep⟩ := completionCheck_cases s <;> rw [hstep]
  · exact .of_synced hl hs hsr hnib (fun _ => lt_of_le_of_ne hle hoff) (by simp [hp])
  · have hlen : s.ppos = s.cfg.len := hat.trans (fillTarget_single hd)
    exact .of_synced hl hs hsr hnib (by simp) (fun _ => ⟨hlen, hn, hv⟩)
  · have hlen : (compact s.cfg.ctap s.pbuf).length = s.cfg.len := by
      have hraw : s.ppos = 2 * s.cfg.len := hat.trans (fillTarget_double hd)
      rw [compact_length, ← State.ppos]
      omega
    exact .of_synced hl hs hsr hnib (by simp) (fun _ => ⟨hlen, hn, hv⟩)

/-- The Filling step keeps the invariants, whether it completes a nibble or not (R90, R91). -/
theorem Inv.of_fillingStep {s t : State} {b : Bool} (h : Inv s) (hp : s.hasPayload = false) (hs : s.synced = true)
    (ht : fillingStep b s = some t) : Inv t := by
  have hsr := h.synced_sr.1 hs
  have hbelow := h.filling_below hp
  obtain ⟨hn, rfl⟩ | ⟨-, -, rfl⟩ := fillingStep_some ht
  · exact .of_synced h.legal hs hsr (assemble_lt b hn h.nib_window) (fun _ => hbelow) (by simp [hp])
  · refine inv_completionCheck h.legal hs hp hsr rfl rfl ?_
    exact (s.ppos_withPbuf_append _).trans_le hbelow

/-- Ingesting a recovered bit keeps the invariants (R85). -/
theorem Inv.of_ingestBit {s t : State} {b : Bool} (h : Inv s) (ht : ingestBit b s = some t) : Inv t := by
  obtain ⟨-, rfl⟩ | ⟨hp, hs, hfill⟩ | ⟨hp, hs, rfl⟩ := ingestBit_some ht
  · exact h
  · exact h.of_fillingStep hp hs hfill
  · exact h.of_unsyncedStep hp hs b

/-! ### A command -/

/-- Every command is an edge, a reset, or one that only responds (R52). -/
theorem Instr.edge_or_rst_or_responds (i : Instr) :
    (∃ d level, i = .edge d level) ∨ i = .rst ∨ (isReadCommand i = true ∨ ∃ d, i = .cls d) := by
  cases i with
  | edge d level => exact .inl ⟨d, level, rfl⟩
  | rst => exact .inr (.inl rfl)
  | cls d => exact .inr (.inr (.inr ⟨d, rfl⟩))
  | _ => exact .inr (.inr (.inl rfl))

/-- Settles O47, the read commands by what a field read can do and `CLS` by its one answer. -/
theorem readsAndClsOnlyRespond : Obligations.ReadsAndClsOnlyRespond := by
  intro s t i hi h
  obtain hread | ⟨d, rfl⟩ := hi
  · exact exec_read_onlyResponse hread h
  · exact (execCls_next h).2 ▸ onlyResponse_withResponse s _

/-- An edge keeps the invariants and the configuration. -/
theorem Inv.of_exec_edge {s t : State} {d : Duration} {level : Bool} (h : Inv s) (ht : exec (.edge d level) s = .next t) :
    Inv t ∧ t.cfg = s.cfg := by
  obtain ⟨-, ⟨-, rfl⟩ | ⟨-, u, hu, rfl⟩⟩ := execEdge_next ht
  · exact ⟨(h.withPhase _).withResponse _, rfl⟩
  · exact ⟨((h.withPhase _).of_ingestBit hu).withResponse _, (edgeKeeps_ingestBit hu).wiring.1⟩

/-- Every command keeps the invariants and the configuration. -/
theorem Inv.of_exec {s t : State} {i : Instr} (h : Inv s) (ht : exec i s = .next t) : Inv t ∧ t.cfg = s.cfg := by
  obtain ⟨d, level, rfl⟩ | rfl | hresponds := Instr.edge_or_rst_or_responds i
  · exact h.of_exec_edge ht
  · obtain ⟨hl, rfl⟩ := execRst_next ht
    exact ⟨(inv_clearRuntime hl).withResponse _, rfl⟩
  · have honly : t = s.withResponse t.resp := readsAndClsOnlyRespond s t i hresponds ht
    rw [honly]
    exact ⟨h.withResponse _, rfl⟩

/-- The count check never stops a command whose read does not stop (R67). -/
theorem withCount_answers {s : State} {count : BitVec 4} {k : Outcome} (hk : ∃ t, k = .next t) :
    ∃ t, withCount s count k = .next t := by
  unfold withCount
  split
  · exact hk
  · exact ⟨_, rfl⟩

/-- In a legal lane `DECODE` answers in every state (R115, R125). -/
theorem exec_decode_answers {s : State} (hl : s.cfg.legal = true) : ∃ t, exec .decode s = .next t := by
  rw [exec_decode, execDecode, onLane_of_legal hl]
  split_ifs
  · exact ⟨_, rfl⟩
  · exact ⟨_, rfl⟩
  · exact readField_answers s _ _ _

/-- From a state that keeps the invariants no command stops: an edge has room for its nibble, and nothing else can. -/
theorem Inv.exec_answers {s : State} (h : Inv s) (i : Instr) : ∃ t, exec i s = .next t := by
  have hgate {k : Outcome} (hk : ∃ t, k = .next t) : ∃ t, onLane s k = .next t := by rwa [onLane_of_legal h.legal]
  cases i with
  | edge d level =>
    obtain ⟨t, ht, -⟩ := edgeAlwaysAnswersOk s d level h
    exact ⟨t, ht⟩
  | rst => exact ⟨_, exec_rst_of_legal h.legal⟩
  | cls d => exact ⟨_, exec_cls_of_legal h.legal d⟩
  | cksum => exact hgate (readField_answers s _ _ _)
  | duns start count => exact hgate (withCount_answers (readField_answers s _ _ _))
  | dbcd start count neg => exact hgate (withCount_answers (readField_answers s _ _ _))
  | rdnib start => exact hgate (readField_answers s _ _ _)
  | decode => exact exec_decode_answers h.legal

/-! ### A step -/

/-- What the port presents when its first word spells a command (R59, R68). -/
theorem takeWord_command {s : State} {w : CommandWord} {rest : List CommandWord} {i : Instr}
    (hport : s.port = w :: rest) (hw : decode w = .ok i) : takeWord s = .command i (s.withPort rest) := by
  simp only [takeWord, hport, hw]

/-- Settles O1: the port presents that command. -/
theorem stepRunsDecodedCommand : Obligations.StepRunsDecodedCommand := by
  intro s w rest i hport hw
  rw [step, takeWord_command hport hw]
  rfl

/-- Settles O2: an empty port presents nothing. -/
theorem stepIdlesWithoutWord : Obligations.StepIdlesWithoutWord := by
  intro s hport
  have hnothing : takeWord s = .nothing := by simp only [takeWord, hport]
  rw [step, hnothing]

/-- Everything a step of a legal lane can be: nothing, the command of the first word, or the answer to a word that spells
none. -/
theorem step_cases {s : State} (hl : s.cfg.legal = true) :
    step s = .next s ∨ (∃ i rest, step s = exec i (s.withPort rest)) ∨
    ∃ rest, step s = .next ((s.withPort rest).withResponse ⟨.illegal, 0#85⟩) := by
  cases hport : s.port with
  | nil => exact .inl (stepIdlesWithoutWord s hport)
  | cons w rest =>
    cases hw : decode w with
    | ok i => exact .inr (.inl ⟨i, rest, stepRunsDecodedCommand s w rest i hport hw⟩)
    | error e => exact .inr (.inr ⟨rest, step_of_undecodable hl hport (by simp [hw])⟩)

/-- Settles O55: by the three kinds of step. -/
theorem stepKeepsInvariants : Obligations.StepKeepsInvariants := by
  intro s t h ht
  obtain hstep | ⟨i, rest, hstep⟩ | ⟨rest, hstep⟩ := step_cases h.legal <;> rw [hstep] at ht
  · cases ht
    exact ⟨h, rfl⟩
  · exact (h.withPort rest).of_exec ht
  · cases ht
    exact ⟨(h.withPort rest).withResponse _, rfl⟩

/-- From a state that keeps the invariants a step does not stop. -/
theorem Inv.step_answers {s : State} (h : Inv s) : ∃ t, step s = .next t := by
  obtain hstep | ⟨i, rest, hstep⟩ | ⟨rest, hstep⟩ := step_cases h.legal <;> rw [hstep]
  · exact ⟨_, rfl⟩
  · exact (h.withPort rest).exec_answers i
  · exact ⟨_, rfl⟩

/-- Settles O56, by induction on the length of the run: a step answers, and keeps the invariants for the rest of the run. -/
theorem legalLaneNeverStops : Obligations.LegalLaneNeverStops := by
  intro s k h
  induction k generalizing s with
  | zero => exact ⟨s, rfl⟩
  | succ k ih =>
    obtain ⟨t, ht⟩ := h.step_answers
    obtain ⟨u, hu⟩ := ih t (stepKeepsInvariants s t h ht).1
    exact ⟨u, by rw [runFor, ht, ← hu]⟩

end Sys2Proof.Machine
end

section
/-! PROOFS. Decoding and encoding against each other and against the opcode table (R59 to R68). -/

namespace Sys2Proof

open Sys2Proof.Machine (getLsbD_nat opcode_toNat)

/-! ### The operands as numbers -/

/-- A single bit of a word as a number. -/
theorem getLsbD_toNat (w : CommandWord) (k : Nat) : (w.getLsbD k).toNat = w.toNat / 2 ^ k % 2 := by
  rw [getLsbD_nat]
  rcases Nat.mod_two_eq_zero_or_one (w.toNat / 2 ^ k) with h | h <;> simp [h]

/-- A one-bit operand is the bit whose number it has. -/
theorem getLsbD_eq_of_toNat {w : CommandWord} {k : Nat} {b : Bool} (h : w.toNat / 2 ^ k % 2 = b.toNat) :
    w.getLsbD k = b := by
  rw [getLsbD_nat, h]
  cases b <;> rfl

/-- A field of a word is the vector whose number it has. -/
theorem wordField_eq_of_toNat {w : CommandWord} {lo len : Nat} {v : BitVec len}
    (h : w.toNat / 2 ^ lo % 2 ^ len = v.toNat) : wordField w lo len = v :=
  BitVec.eq_of_toNat_eq ((wordField_toNat w lo len).trans h)

/-- A field of a word is zero when its bits of the word's number are. -/
theorem wordField_eq_zero {w : CommandWord} {lo len : Nat} (h : w.toNat / 2 ^ lo % 2 ^ len = 0) :
    wordField w lo len = 0#len := wordField_eq_of_toNat (by rw [h, BitVec.toNat_ofNat, Nat.zero_mod])

/-! ### What the decoder answers, row by row -/

/-- The decoder on a word of each opcode: the row's checks, then its command (R68). -/
theorem decode_of_opcode (w : CommandWord) :
    (w.toNat / 2 ^ 36 = 1 → decode w = requireZero (wordField w 33 3) (.ok (.edge (durationOf w) (levelOf w)))) ∧
    (w.toNat / 2 ^ 36 = 2 → decode w = requireZero (wordField w 0 36) (.ok .rst)) ∧
    (w.toNat / 2 ^ 36 = 3 → decode w = requireZero (wordField w 32 4) (.ok (.cls (durationOf w)))) ∧
    (w.toNat / 2 ^ 36 = 4 → decode w = requireZero (wordField w 0 36) (.ok .cksum)) ∧
    (w.toNat / 2 ^ 36 = 5 →
      decode w = requireZero (wordField w 9 27) (requireCount (countOf w) (.ok (.duns (startOf w) (countOf w))))) ∧
    (w.toNat / 2 ^ 36 = 6 → decode w =
      requireZero (wordField w 10 26) (requireCount (countOf w) (.ok (.dbcd (startOf w) (countOf w) (negOf w))))) ∧
    (w.toNat / 2 ^ 36 = 7 → decode w = requireZero (wordField w 5 31) (.ok (.rdnib (startOf w)))) ∧
    (w.toNat / 2 ^ 36 = 8 → decode w = requireZero (wordField w 0 36) (.ok .decode)) := by
  rw [← opcode_toNat]
  refine ⟨?_, ?_, ?_, ?_, ?_, ?_, ?_, ?_⟩ <;> intro hop <;> simp only [decode, hop]

/-- Settles O6: opcode, zero fields, count and operands of the word are read off its number. -/
theorem decodeEncodeRoundTrip : Obligations.DecodeEncodeRoundTrip := by
  intro i hi
  have hw := encode_toNat i
  obtain ⟨edge, rst, cls, cksum, duns, dbcd, rdnib, dec⟩ := decode_of_opcode (encode i)
  cases i with
  | edge d level =>
    have hd := d.isLt
    have hlevel := level.toNat_le
    dsimp only at hw
    have hduration : durationOf (encode (.edge d level)) = d := wordField_eq_of_toNat (by omega)
    have hlevelOf : levelOf (encode (.edge d level)) = level := getLsbD_eq_of_toNat (by omega)
    rw [edge (by omega), requireZero_ok, hduration, hlevelOf]
    exact ⟨wordField_eq_zero (by omega), rfl⟩
  | rst => rfl
  | cls d =>
    have hd := d.isLt
    dsimp only at hw
    have hduration : durationOf (encode (.cls d)) = d := wordField_eq_of_toNat (by omega)
    rw [cls (by omega), requireZero_ok, hduration]
    exact ⟨wordField_eq_zero (by omega), rfl⟩
  | cksum => rfl
  | duns start count =>
    have hs := start.isLt
    have hc := count.isLt
    dsimp only at hw
    have hstart : startOf (encode (.duns start count)) = start := wordField_eq_of_toNat (by omega)
    have hcount : countOf (encode (.duns start count)) = count := wordField_eq_of_toNat (by omega)
    rw [duns (by omega), requireZero_ok, requireCount_ok, hstart, hcount]
    exact ⟨wordField_eq_zero (by omega), of_decide_eq_true hi, rfl⟩
  | dbcd start count neg =>
    have hs := start.isLt
    have hc := count.isLt
    have hn := neg.toNat_le
    dsimp only at hw
    have hstart : startOf (encode (.dbcd start count neg)) = start := wordField_eq_of_toNat (by omega)
    have hcount : countOf (encode (.dbcd start count neg)) = count := wordField_eq_of_toNat (by omega)
    have hneg : negOf (encode (.dbcd start count neg)) = neg := getLsbD_eq_of_toNat (by omega)
    rw [dbcd (by omega), requireZero_ok, requireCount_ok, hstart, hcount, hneg]
    exact ⟨wordField_eq_zero (by omega), of_decide_eq_true hi, rfl⟩
  | rdnib start =>
    have hs := start.isLt
    dsimp only at hw
    have hstart : startOf (encode (.rdnib start)) = start := wordField_eq_of_toNat (by omega)
    rw [rdnib (by omega), requireZero_ok, hstart]
    exact ⟨wordField_eq_zero (by omega), rfl⟩
  | decode => rfl

/-- A command that a word decodes to is well formed: the decoder checks the count of both format F rows (R67). -/
theorem wellFormed_of_decode {w : CommandWord} {i : Instr} (h : decode w = .ok i) : i.wellFormed = true := by
  rcases decode_cases h with ⟨-, -, rfl⟩ | ⟨-, -, rfl⟩ | ⟨-, -, rfl⟩ | ⟨-, -, rfl⟩ | ⟨-, -, hc, rfl⟩ | ⟨-, -, hc, rfl⟩ |
    ⟨-, -, rfl⟩ | ⟨-, -, rfl⟩
  exacts [rfl, rfl, rfl, rfl, decide_eq_true hc, decide_eq_true hc, rfl, rfl]

/-- The word of a command that a word decodes to is that word: opcode, zero fields and operands cover its 40 bits (R60). -/
theorem encode_of_decode {w : CommandWord} {i : Instr} (h : decode w = .ok i) : encode i = w := by
  apply BitVec.eq_of_toNat_eq
  rw [encode_toNat]
  have hbits := w.isLt
  rcases decode_cases h with ⟨hop, hz, rfl⟩ | ⟨hop, hz, rfl⟩ | ⟨hop, hz, rfl⟩ | ⟨hop, hz, rfl⟩ | ⟨hop, hz, -, rfl⟩ |
    ⟨hop, hz, -, rfl⟩ | ⟨hop, hz, rfl⟩ | ⟨hop, hz, rfl⟩
  all_goals
    rw [opcode_toNat] at hop
    rw [← BitVec.toNat_inj, wordField_toNat, BitVec.toNat_ofNat] at hz
    simp only [durationOf, levelOf, startOf, countOf, negOf, wordField_toNat, getLsbD_toNat]
    omega

/-- Settles O7, from the count check and the fields of the word. -/
theorem decodedWordIsEncoding : Obligations.DecodedWordIsEncoding := fun _ _ h =>
  ⟨wellFormed_of_decode h, encode_of_decode h⟩

/-! ### The opcode table -/

/-- The two tests a row makes (R63). -/
theorem OpcodeRow.accepts_iff {r : OpcodeRow} {w : CommandWord} :
    r.accepts w = true ↔ w &&& r.mask = r.pattern ∧ (r.formatF = true → (countOf w).toNat ≤ 8) := by
  cases hf : r.formatF <;> simp [OpcodeRow.accepts, countOk, hf]

/-- A row accepts only words of its own opcode, for every mask keeps the opcode bits (R63). -/
theorem opcode_of_accepts {w : CommandWord} {r : OpcodeRow} (hr : r ∈ opcodeTable) (h : r.accepts w = true) :
    w.toNat / 2 ^ 36 = r.pattern.toNat / 2 ^ 36 := by
  have hmask : ∀ r ∈ opcodeTable, r.mask.extractLsb' 36 4 = BitVec.allOnes 4 := by decide
  have hfield : wordField w 36 4 = wordField r.pattern 36 4 := by
    rw [← (OpcodeRow.accepts_iff.1 h).1, wordField, wordField, BitVec.extractLsb'_and, hmask r hr, BitVec.and_allOnes]
  rw [← opcode_toNat, hfield, opcode_toNat]

/-- Rows are told apart by their opcodes, and by their mnemonics (R63). -/
theorem opcodeTable_rows_distinct :
    ∀ r ∈ opcodeTable, ∀ r' ∈ opcodeTable,
      (r.pattern.toNat / 2 ^ 36 = r'.pattern.toNat / 2 ^ 36 → r = r') ∧ (r.mnemonic = r'.mnemonic → r = r') := by
  decide

/-- The word of a well-formed command is accepted by the row of its mnemonic (R64). -/
theorem own_row_accepts_encode (i : Instr) : Laws.EncodeMatchesTable.Statement i := by
  cases i with
  | edge d level => exact Laws.EncodeMatchesTable.edge d level
  | rst => exact Laws.EncodeMatchesTable.rst
  | cls d => exact Laws.EncodeMatchesTable.cls d
  | cksum => exact Laws.EncodeMatchesTable.cksum
  | duns start count => exact Laws.EncodeMatchesTable.duns start count
  | dbcd start count neg => exact Laws.EncodeMatchesTable.dbcd start count neg
  | rdnib start => exact Laws.EncodeMatchesTable.rdnib start
  | decode => exact Laws.EncodeMatchesTable.decode

/-- A word that decodes is accepted by the row of its mnemonic, being the word of the command it decodes to. -/
theorem own_row_accepts {w : CommandWord} {i : Instr} (h : decode w = .ok i) :
    ∃ r ∈ opcodeTable, r.mnemonic = i.mnemonic ∧ r.accepts w = true := by
  obtain ⟨r, hr, hname, haccepts⟩ := own_row_accepts_encode i (wellFormed_of_decode h)
  exact ⟨r, hr, hname, encode_of_decode h ▸ haccepts⟩

/-- A word that a row accepts decodes: the row's match leaves the zero fields of its format zero (R66, R68). -/
theorem exists_decode_of_accepts {w : CommandWord} {r : OpcodeRow} (hr : r ∈ opcodeTable) (h : r.accepts w = true) :
    ∃ i, decode w = .ok i := by
  obtain ⟨hmatch, hcount⟩ := OpcodeRow.accepts_iff.1 h
  obtain ⟨medge, mrst, mcls, mcksum, mduns, mdbcd, mrdnib, mdecode⟩ := opcodeRow_tests w
  obtain ⟨edge, rst, cls, cksum, duns, dbcd, rdnib, dec⟩ := decode_of_opcode w
  simp only [opcodeTable, List.mem_cons, List.not_mem_nil, or_false] at hr
  rcases hr with rfl | rfl | rfl | rfl | rfl | rfl | rfl | rfl
  · have hw := medge.1 hmatch
    exact ⟨_, (edge (by omega)).trans (requireZero_ok.2 ⟨wordField_eq_zero (by omega), rfl⟩)⟩
  · have hw := mrst.1 hmatch
    exact ⟨_, (rst (by omega)).trans (requireZero_ok.2 ⟨wordField_eq_zero (by omega), rfl⟩)⟩
  · have hw := mcls.1 hmatch
    exact ⟨_, (cls (by omega)).trans (requireZero_ok.2 ⟨wordField_eq_zero (by omega), rfl⟩)⟩
  · have hw := mcksum.1 hmatch
    exact ⟨_, (cksum (by omega)).trans (requireZero_ok.2 ⟨wordField_eq_zero (by omega), rfl⟩)⟩
  · have hw := mduns.1 hmatch
    exact ⟨_, (duns (by omega)).trans (requireZero_ok.2 ⟨wordField_eq_zero (by omega), requireCount_ok.2 ⟨hcount rfl, rfl⟩⟩)⟩
  · have hw := mdbcd.1 hmatch
    exact ⟨_, (dbcd (by omega)).trans (requireZero_ok.2 ⟨wordField_eq_zero (by omega), requireCount_ok.2 ⟨hcount rfl, rfl⟩⟩)⟩
  · have hw := mrdnib.1 hmatch
    exact ⟨_, (rdnib (by omega)).trans (requireZero_ok.2 ⟨wordField_eq_zero (by omega), rfl⟩)⟩
  · have hw := mdecode.1 hmatch
    exact ⟨_, (dec (by omega)).trans (requireZero_ok.2 ⟨wordField_eq_zero (by omega), rfl⟩)⟩

/-- Settles O8: the own row of a word that decodes accepts it, and another row that did would have the same opcode. -/
theorem decodeAgreesWithOpcodeTable : Obligations.DecodeAgreesWithOpcodeTable := by
  intro w
  refine ⟨⟨fun ⟨i, h⟩ => ?_, fun ⟨r, hr, h⟩ => exists_decode_of_accepts hr h⟩, fun i h r hr => ?_⟩
  · obtain ⟨r, hr, -, haccepts⟩ := own_row_accepts h
    exact ⟨r, hr, haccepts⟩
  · obtain ⟨own, hown, hname, haccepts⟩ := own_row_accepts h
    obtain ⟨hopcode, hmnemonic⟩ := opcodeTable_rows_distinct r hr own hown
    constructor
    · intro hr'
      rw [hopcode ((opcode_of_accepts hr hr').symm.trans (opcode_of_accepts hown haccepts)), hname]
    · intro hr'
      rwa [hmnemonic (hr'.trans hname.symm)]

/-- Settles O9: closed words, decoded by evaluation. -/
theorem exampleWordsDecode : Obligations.ExampleWordsDecode := by
  refine ⟨?_, ?_, ?_, ?_, ?_, ?_, ?_, ?_, ?_⟩ <;> rfl

end Sys2Proof
end

section
/-! PROOFS. The read commands (R50, R107 to R111, R125): their refusals and the numbers the field reader answers. -/

namespace Sys2Proof.Machine

/-! ### The commands of the field reader in a legal lane -/

/-- `RDNIB` in a legal lane is a read of one nibble (R108). -/
theorem exec_rdnib_of_legal {s : State} (hl : s.cfg.legal = true) (start : BitVec 5) :
    exec (.rdnib start) s = readField s start.toNat 1 fun p => toData (BitVec.ofNat 4 (unsignedValue p)) :=
  onLane_of_legal hl

/-- `DUNS` in a legal lane, with a count its words allow, is a base-16 read (R67, R109). -/
theorem exec_duns_of_legal {s : State} (hl : s.cfg.legal = true) (start : BitVec 5) {count : BitVec 4}
    (hc : count.toNat ≤ 8) :
    exec (.duns start count) s =
      readField s start.toNat count.toNat fun p => toData (BitVec.ofNat 32 (unsignedValue p)) :=
  (onLane_of_legal hl).trans (if_pos (decide_eq_true hc))

/-- `DBCD` in a legal lane, with a count its words allow, is a base-10 read (R67, R110). -/
theorem exec_dbcd_of_legal {s : State} (hl : s.cfg.legal = true) (start : BitVec 5) {count : BitVec 4} (neg : Bool)
    (hc : count.toNat ≤ 8) :
    exec (.dbcd start count neg) s =
      readField s start.toNat count.toNat fun p => toData (BitVec.ofInt 32 (signedBcd p neg)) :=
  (onLane_of_legal hl).trans (if_pos (decide_eq_true hc))

/-! ### Refusals -/

/-- A count above 8 is refused before any state is looked at (R67, R139). -/
theorem withCount_of_overlong {s : State} {count : BitVec 4} {k : Outcome} (hc : 8 < count.toNat) :
    withCount s count k = refuse s .illegal := if_neg (by simpa [countOk] using hc)

/-- Settles O34: both commands check the count first. -/
theorem overlongCountIsIllegalInAnyState : Obligations.OverlongCountIsIllegalInAnyState := by
  intro s start count neg hl hc
  exact ⟨(onLane_of_legal hl).trans (withCount_of_overlong hc), (onLane_of_legal hl).trans (withCount_of_overlong hc)⟩

/-- Settles O32: every read command is a field read, but for `DECODE`, which looks for the payload itself. -/
theorem readsWithoutPayloadNotReady : Obligations.ReadsWithoutPayloadNotReady := by
  intro s i hl hp hread hwf
  cases i with
  | edge _ _ => cases hread
  | rst => cases hread
  | cls _ => cases hread
  | cksum => exact (onLane_of_legal hl).trans (readField_notReady hp)
  | duns start count => exact (exec_duns_of_legal hl start (of_decide_eq_true hwf)).trans (readField_notReady hp)
  | dbcd start count neg => exact (exec_dbcd_of_legal hl start neg (of_decide_eq_true hwf)).trans (readField_notReady hp)
  | rdnib start => exact (exec_rdnib_of_legal hl start).trans (readField_notReady hp)
  | decode => exact (onLane_of_legal hl).trans (if_pos hp)

/-- Settles O33: a field that reaches past `PAYLEN`, and the comparison of `DECODE` with what its layout needs. -/
theorem readsPastPayloadOutOfRange : Obligations.ReadsPastPayloadOutOfRange := by
  intro s start count neg hl hp
  refine ⟨fun hpast => ?rdnib, fun hc hpast => ⟨?duns, ?dbcd⟩, fun hneed => ?decode⟩
  case rdnib => exact (exec_rdnib_of_legal hl start).trans (readField_range hp hpast)
  case duns => exact (exec_duns_of_legal hl start hc).trans (readField_range hp hpast)
  case dbcd => exact (exec_dbcd_of_legal hl start neg hc).trans (readField_range hp hpast)
  case decode => exact (onLane_of_legal hl).trans ((if_neg (by simp [hp])).trans (if_pos hneed))

/-! ### Answers -/

/-- The value of a field inside the payload, by the indices of the buffer (R14, R45). -/
theorem baseValue_field (b : Nat) {s : State} {start n : Nat} (h : start + n ≤ s.ppos) :
    baseValue b ((s.pbuf.drop start).take n) =
      ∑ k ∈ Finset.range n, nibbleNum s (start + k) * b ^ (n - 1 - k) := by
  rw [baseValue_sum, field_length h]
  refine Finset.sum_congr rfl fun k hk => ?_
  rw [getD_field s.pbuf start (Finset.mem_range.1 hk), nibbleNum]

/-- A field of at most `n` nibbles has a base-16 value of `4·n` bits (R109). -/
theorem unsignedValue_lt {l : List Nibble} {n : Nat} (h : l.length ≤ n) : unsignedValue l < 2 ^ (4 * n) := by
  calc unsignedValue l < 16 ^ l.length := baseValue_lt 16 l fun n _ => n.isLt
    _ ≤ 16 ^ n := Nat.pow_le_pow_right (by decide) h
    _ = 2 ^ (4 * n) := by rw [pow_mul]; norm_num

/-- Settles O35: the field of one nibble is that nibble, and four bits hold it. -/
theorem rdnibAnswersNibble : Obligations.RdnibAnswersNibble := by
  intro s start hl hp hlen hstart
  have hfield : start.toNat + 1 ≤ s.ppos := by omega
  have hfits := unsignedValue_lt (field_length hfield).le
  have hvalue : unsignedValue ((s.pbuf.drop start.toNat).take 1) = nibbleNum s start.toNat := by
    simpa using! baseValue_field 16 hfield
  rw [exec_rdnib_of_legal hl, readField_ok hp hlen hstart, toData_ofNat 4 _ hfits (by decide), hvalue]
  rfl

/-- Settles O36: 32 bits hold the base-16 value of at most 8 nibbles. -/
theorem dunsAnswersBase16Sum : Obligations.DunsAnswersBase16Sum := by
  intro s start count hl hp hlen hc hfield
  have hinside := hfield.trans hlen.ge
  have hfits : unsignedValue ((s.pbuf.drop start.toNat).take count.toNat) < 2 ^ 32 :=
    unsignedValue_lt ((field_length hinside).trans_le hc)
  rw [exec_duns_of_legal hl start hc, readField_ok hp hlen hfield, toData_ofNat 32 _ hfits (by decide), unsignedValue,
    baseValue_field 16 hinside]
  rfl

/-- The signed value of a BCD field as a sign times its magnitude (R110). -/
theorem signedBcd_eq_sign_mul (l : List Nibble) (neg : Bool) :
    signedBcd l neg = (if neg = true then -1 else 1) * (bcdValue l : ℤ) := by
  cases neg <;> simp [signedBcd]

/-- Settles O37: the data bus shows the signed value mod `2^32`. -/
theorem dbcdAnswersBase10Sum : Obligations.DbcdAnswersBase10Sum := by
  intro s start count neg hl hp hlen hc hfield
  rw [exec_dbcd_of_legal hl start neg hc, readField_ok hp hlen hfield, toData_ofInt, signedBcd_eq_sign_mul, bcdValue,
    baseValue_field 10 (hfield.trans hlen.ge)]
  rfl

/-- The field of `EMBCK` starts two nibbles before the end of the payload (R71, R105). -/
theorem readEmbedded_start {c : LaneConfig} (hl : c.legal = true) : (c.paylen - 2#5).toNat = c.len - 2 := by
  obtain ⟨-, hmin, -⟩ := legal_iff.1 hl
  rw [LaneConfig.len] at hmin ⊢
  exact BitVec.toNat_sub_of_le (y := 2#5) hmin

/-- Settles O40: `EMBCK` is the `DUNS` of the last two nibbles. -/
theorem embckAnswersEmbeddedChecksum : Obligations.EmbckAnswersEmbeddedChecksum := by
  intro s hl hp hlen
  obtain ⟨-, hmin, -⟩ := legal_iff.1 hl
  have hstart := readEmbedded_start hl
  have hlast : s.cfg.len - 2 + 1 = s.cfg.len - 1 := by omega
  have hfield : (s.cfg.paylen - 2#5).toNat + 2 ≤ s.cfg.len := by omega
  rw [readEmbedded, dunsAnswersBase16Sum s _ 2#4 hl hp hlen (by decide) hfield, hstart]
  simp [Finset.sum_range_succ, hlast, mul_comm]

end Sys2Proof.Machine
end

section
/-! PROOFS. Properties of all commands (R52, R62, R93, R115, R138): refusals, repetition, widths of the data, the frozen payload. -/

namespace Sys2Proof.Machine

/-! ### Refusals and responses -/

/-- Settles O58: every command stands behind the legality gate. -/
theorem illegalConfigurationRefused : Obligations.IllegalConfigurationRefused := by
  intro s i hl
  cases i <;> exact onLane_of_illegal hl

/-- What R138 asks of an answer: executed, or refused with no data and no state change. -/
def OkOrRefused (s t : State) : Prop := t.resp.st = .ok ∨ t = s.withResponse ⟨t.resp.st, 0#85⟩

/-- A field read is executed or refused (R107). -/
theorem readField_okOrRefused {s t : State} {start count : Nat} {f : List Nibble → ResponseData}
    (h : readField s start count f = .next t) : OkOrRefused s t := by
  obtain ⟨-, rfl⟩ | ⟨-, -, rfl⟩ | ⟨-, -, -, rfl⟩ := readField_next h
  · exact .inr rfl
  · exact .inr rfl
  · exact .inl rfl

/-- A field read behind the count check is executed or refused (R67). -/
theorem withCount_okOrRefused {s t : State} {start n : Nat} {count : BitVec 4} {f : List Nibble → ResponseData}
    (h : withCount s count (readField s start n f) = .next t) : OkOrRefused s t := by
  obtain ⟨-, rfl⟩ | ⟨-, hread⟩ := withCount_next h
  · exact .inr rfl
  · exact readField_okOrRefused hread

/-- An edge is always executed (R94). -/
theorem exec_edge_st {s t : State} {d : Duration} {level : Bool} (h : exec (.edge d level) s = .next t) :
    t.resp.st = .ok := by
  obtain ⟨-, ⟨-, rfl⟩ | ⟨-, u, -, rfl⟩⟩ := execEdge_next h <;> rfl

/-- `RST` is always executed (R97). -/
theorem exec_rst_st {s t : State} (h : exec .rst s = .next t) : t.resp.st = .ok := by
  rw [(execRst_next h).2, State.withResponse_resp]

/-- `CLS` is always executed (R83). -/
theorem exec_cls_st {s t : State} {d : Duration} (h : exec (.cls d) s = .next t) : t.resp.st = .ok := by
  rw [(execCls_next h).2, State.withResponse_resp]

/-- What `DECODE` does when it answers: one of two refusals, or a read of the whole payload (R115, R125). -/
theorem exec_decode_next {s t : State} (h : exec .decode s = .next t) :
    (s.hasPayload = false ∧ t = s.withResponse ⟨.notReady, 0#85⟩) ∨
    (s.hasPayload = true ∧ s.cfg.len < need s.cfg ∧ t = s.withResponse ⟨.range, 0#85⟩) ∨
    (s.hasPayload = true ∧ need s.cfg ≤ s.cfg.len ∧
      readField s 0 s.cfg.len (fun p => packReading (readingOf s.cfg p (Config.freeChannel s.draw p))) = .next t) := by
  obtain ⟨-, hbody⟩ := onLane_next.1 h
  split_ifs at hbody with hp hneed
  · exact .inl ⟨hp, refuse_next.1 hbody⟩
  · exact .inr (.inl ⟨Bool.eq_true_of_not_eq_false hp, hneed, refuse_next.1 hbody⟩)
  · exact .inr (.inr ⟨Bool.eq_true_of_not_eq_false hp, not_lt.1 hneed, hbody⟩)

/-- Every command is executed or refused (R138). -/
theorem exec_okOrRefused {s t : State} {i : Instr} (h : exec i s = .next t) : OkOrRefused s t := by
  cases i with
  | edge d level => exact .inl (exec_edge_st h)
  | rst => exact .inl (exec_rst_st h)
  | cls d => exact .inl (exec_cls_st h)
  | cksum => exact readField_okOrRefused (onLane_next.1 h).2
  | duns start count => exact withCount_okOrRefused (onLane_next.1 h).2
  | dbcd start count neg => exact withCount_okOrRefused (onLane_next.1 h).2
  | rdnib start => exact readField_okOrRefused (onLane_next.1 h).2
  | decode =>
    obtain ⟨-, rfl⟩ | ⟨-, -, rfl⟩ | ⟨-, -, hread⟩ := exec_decode_next h
    · exact .inr rfl
    · exact .inr rfl
    · exact readField_okOrRefused hread

/-- Settles O50: an answer that is not `OK` is a refusal, and the three commands outside the reads always answer `OK`. -/
theorem refusedCommandChangesNothing : Obligations.RefusedCommandChangesNothing := by
  intro s t i h
  refine ⟨(exec_okOrRefused h).resolve_left, ?edge, ?rst, ?cls⟩
  case edge => rintro d level rfl; exact exec_edge_st h
  case rst => rintro rfl; exact exec_rst_st h
  case cls => rintro d rfl; exact exec_cls_st h

/-! ### Repetition -/

/-- A command that only responds does not read the response before it: its meaning is the same after another response (R52). -/
theorem exec_withResponse (s : State) (r : Response) {i : Instr} (hi : isReadCommand i = true ∨ ∃ d, i = .cls d) :
    exec i (s.withResponse r) = exec i s := by
  obtain hread | ⟨d, rfl⟩ := hi
  · cases i with
    | edge _ _ => cases hread
    | rst => cases hread
    | cls _ => cases hread
    | _ => rfl
  · rfl

/-- Settles O48: the first answer differs from the state before it in the response only. -/
theorem repeatedReadAnswersTheSame : Obligations.RepeatedReadAnswersTheSame := by
  intro s t i hi h
  have honly : t = s.withResponse t.resp := readsAndClsOnlyRespond s t i hi h
  rw [honly, exec_withResponse s t.resp hi, h, ← honly]

/-! ### The width of the data -/

/-- A result on the data bus is below the power of its width (R62). -/
theorem toData_lt {n : Nat} (v : BitVec n) : (toData v).toNat < 2 ^ n := by
  rw [toData, BitVec.toNat_setWidth]
  exact lt_of_le_of_lt (Nat.mod_le _ _) v.isLt

/-- The data of a field read are 0 or a result of its width (R107). -/
theorem readField_data_lt {s t : State} {start count n : Nat} {g : List Nibble → BitVec n}
    (h : readField s start count (fun p => toData (g p)) = .next t) : t.resp.data.toNat < 2 ^ n := by
  obtain ⟨-, rfl⟩ | ⟨-, -, rfl⟩ | ⟨-, -, -, rfl⟩ := readField_next h
  · exact Nat.two_pow_pos n
  · exact Nat.two_pow_pos n
  · exact toData_lt _

/-- The data of a field read behind the count check are 0 or a result of its width (R67). -/
theorem withCount_data_lt {s t : State} {start m n : Nat} {count : BitVec 4} {g : List Nibble → BitVec n}
    (h : withCount s count (readField s start m fun p => toData (g p)) = .next t) : t.resp.data.toNat < 2 ^ n := by
  obtain ⟨-, rfl⟩ | ⟨-, hread⟩ := withCount_next h
  · exact Nat.two_pow_pos n
  · exact readField_data_lt hread

/-- The two bits of an `EDGE` response (R94). -/
theorem edgeData_lt (b : Option Bool) : (edgeData b).toNat < 4 := by
  cases b with
  | none => decide
  | some b => exact toData_lt (BitVec.ofBool true ++ BitVec.ofBool b)

/-- The class numbers are 0, 1 and 2 (R83). -/
theorem classCode_lt (k : PulseClass) : (toData k.code).toNat < 3 := by
  cases k <;> decide

/-- Settles O51, by the command. -/
theorem responseDataFitsTheResult : Obligations.ResponseDataFitsTheResult := by
  intro s t i h
  cases i with
  | edge d level =>
    obtain ⟨-, ⟨-, rfl⟩ | ⟨-, u, -, rfl⟩⟩ := execEdge_next h <;> exact edgeData_lt _
  | rst =>
    rw [(execRst_next h).2]
    exact Nat.one_pos
  | cls d =>
    rw [(execCls_next h).2]
    exact classCode_lt _
  | cksum => exact readField_data_lt (onLane_next.1 h).2
  | duns start count => exact withCount_data_lt (onLane_next.1 h).2
  | dbcd start count neg => exact withCount_data_lt (onLane_next.1 h).2
  | rdnib start => exact readField_data_lt (onLane_next.1 h).2
  | decode => exact t.resp.data.isLt

/-! ### The frozen payload -/

/-- While the payload is ready, a command other than `RST` changes `PHASE`, the response and nothing else (R39 item 3, R93). -/
theorem exec_of_ready {s t : State} {i : Instr} (hp : s.hasPayload = true) (hi : i ≠ .rst) (h : exec i s = .next t) :
    t = (s.withPhase t.phase).withResponse t.resp := by
  obtain ⟨d, level, rfl⟩ | hrst | hresponds := Instr.edge_or_rst_or_responds i
  · have hready := readyEdgeMovesPhaseOnly s d level (execEdge_next h).1 hp
    cases hready.symm.trans h
    rfl
  · exact absurd hrst hi
  · have honly : t = s.withResponse t.resp := readsAndClsOnlyRespond s t i hresponds h
    rw [honly]
    rfl

/-- Settles O52: `PHASE` and the response are none of the frozen fields. -/
theorem payloadFrozenUntilReset : Obligations.PayloadFrozenUntilReset := by
  intro s t i hp hi h
  rw [exec_of_ready hp hi h]
  exact ⟨rfl, rfl, rfl, rfl, rfl, rfl, hp⟩

/-! ### What `DECODE` depends on -/

/-- The response of `DECODE` as a function of all it reads: the configuration, the ready flag, the buffer and the draw (R115,
R125, R126). -/
def decodeResponse (c : LaneConfig) (ready : Bool) (p : Memory) (draw : Nat) : Response :=
  if ready = false then ⟨.notReady, 0#85⟩
  else if c.len < need c ∨ p.length < c.len then ⟨.range, 0#85⟩
  else ⟨.ok, packReading (readingOf c (p.take c.len) (Config.freeChannel draw (p.take c.len)))⟩

/-- A `DECODE` that answers gives that response. -/
theorem exec_decode_resp {s t : State} (h : exec .decode s = .next t) :
    t.resp = decodeResponse s.cfg s.hasPayload s.pbuf s.draw := by
  unfold decodeResponse
  obtain ⟨hp, rfl⟩ | ⟨hp, hneed, rfl⟩ | ⟨hp, hneed, hread⟩ := exec_decode_next h
  · rw [if_pos hp, State.withResponse_resp]
  · rw [if_neg (by simp [hp]), if_pos (.inl hneed), State.withResponse_resp]
  · obtain ⟨hnone, -⟩ | ⟨-, hpast, rfl⟩ | ⟨-, -, hin, rfl⟩ := readField_next hread
    · simp [hp] at hnone
    · have hshort : s.pbuf.length < s.cfg.len := by simpa [State.ppos] using hpast
      rw [if_neg (by simp [hp]), if_pos (.inr hshort), State.withResponse_resp]
    · have hlong : s.cfg.len ≤ s.pbuf.length := by simpa [State.ppos] using hin
      rw [if_neg (by simp [hp]), if_neg (not_or.2 ⟨hneed.not_gt, hlong.not_gt⟩), State.withResponse_resp, List.drop_zero]

/-- Settles O49: no command but `RST` changes what `DECODE` reads. -/
theorem readingStaysUntilReset : Obligations.ReadingStaysUntilReset := by
  intro s t u v i hp hi h hu hv
  rw [exec_decode_resp hu, exec_decode_resp hv, exec_of_ready hp hi h]
  rfl

/-- Another free value gives a reading that differs in the `channel` at most (R126). -/
theorem readingOf_free (c : LaneConfig) (p : List Nibble) (f g : Nibble) :
    readingOf c p g = { readingOf c p f with channel := (readingOf c p g).channel } := by
  unfold readingOf
  cases c.variant <;> rfl

/-- The free value is used in a v2 reading whose nibble 4 is 0 and nowhere else (R126). -/
theorem readingOf_free_unused {c : LaneConfig} {p : List Nibble} (f g : Nibble)
    (h : c.variant ≠ .v2 ∨ (nibbleOf p 4).toNat ≠ 0) : readingOf c p f = readingOf c p g := by
  unfold readingOf
  cases hv : c.variant with
  | v1 => rfl
  | v2 =>
    have hne : nibbleOf p 4 ≠ 0#4 := fun h0 => h.resolve_left (not_not.2 hv) (by rw [h0]; rfl)
    simp only [layoutV2, channelV2, if_neg hne]
  | v3 => rfl

/-- The `channel` is above bit 80 of the packed reading (R128). -/
theorem packReading_low_channel (r : Reading) (channel : BitVec 4) :
    (packReading { r with channel := channel }).extractLsb' 0 81 = (packReading r).extractLsb' 0 81 := by
  apply extractLsb'_eq_of_div_mod
  rw [BitVec.extractLsb'_toNat, Nat.shiftRight_zero, pow_zero, Nat.div_one, packReading_toNat, packReading_toNat]
  simp only [Nat.add_mul_mod_self_left]

/-- A layout v2 that fits the payload reads nibble 4 inside it (R125). -/
theorem nibbleOf_four_take {c : LaneConfig} (p : List Nibble) (hv : c.variant = .v2) (hneed : need c ≤ c.len) :
    nibbleOf (p.take c.len) 4 = nibbleOf p 4 := by
  have hin : 4 < c.len := lt_of_lt_of_le (by simp [need, hv]) hneed
  simpa using! getD_field p 0 hin

/-- Settles O46: the draw reaches the response of `DECODE` only as the free value of its reading. -/
theorem freeChannelReachesNothingElse : Obligations.FreeChannelReachesNothingElse := by
  intro s t u k ht hu
  have hs := exec_decode_resp ht
  have hk : u.resp = decodeResponse s.cfg s.hasPayload s.pbuf k := exec_decode_resp (s := { s with draw := k }) hu
  simp only [dataField]
  rw [hs, hk]
  unfold decodeResponse
  split_ifs with hp hrefused
  · exact ⟨rfl, rfl, fun _ => rfl⟩
  · exact ⟨rfl, rfl, fun _ => rfl⟩
  · obtain ⟨hneed, -⟩ := not_or.1 hrefused
    refine ⟨rfl, ?_, fun hfixed => ?_⟩
    · rw [readingOf_free _ _ (Config.freeChannel k (s.pbuf.take s.cfg.len)) (Config.freeChannel s.draw _)]
      exact packReading_low_channel _ _
    · have hunused : s.cfg.variant ≠ .v2 ∨ (nibbleOf (s.pbuf.take s.cfg.len) 4).toNat ≠ 0 := by
        by_cases hv : s.cfg.variant = .v2
        · rw [nibbleOf_four_take s.pbuf hv (not_lt.1 hneed)]
          exact hfixed
        · exact .inl hv
      rw [readingOf_free_unused _ _ hunused]

end Sys2Proof.Machine
end

section
/-! PROOFS. `RST`, the status outputs and the presets (R8, R41, R97). -/

namespace Sys2Proof.Machine

/-- Settles O29: the cleared runtime is that of a reset lane. -/
theorem rstRestoresResetState : Obligations.RstRestoresResetState := by
  intro s hl
  rw [exec_rst_of_legal hl]
  rfl

/-- Settles O31: each output is the code of its flag. -/
theorem statusOutputsAreTheFlags : Obligations.StatusOutputsAreTheFlags := by
  refine ⟨fun s => ⟨?phase, ?synced, ?ready⟩, fun c => ⟨rfl, rfl, rfl⟩⟩
  case phase =>
    rw [State.phaseO]
    cases s.phase <;> decide
  case synced =>
    rw [State.syncedO]
    cases s.synced <;> decide
  case ready =>
    rw [State.readyO]
    cases s.hasPayload <;> decide

/-- Settles O59: closed values of the three presets, by evaluation. -/
theorem presetsAreLegal : Obligations.PresetsAreLegal := by
  refine ⟨?_, ?_, ?_⟩ <;> decide

end Sys2Proof.Machine
end

section
/-! PROOFS. A recovered bit of a fill (R90 to R92): the nibble assembled, the nibble appended, the completion of both rates. -/

namespace Sys2Proof.Machine

/-- An edge whose bit goes to the nibble assembler answers what the Filling step makes of it (R85, R94). -/
theorem exec_edge_of_filling {s u : State} {d : Duration} {level : Bool} (hl : s.cfg.legal = true) (hy : YieldsBit s d)
    (hp : s.hasPayload = false) (hs : s.synced = true) (hu : fillingStep (!level) (s.withPhase .ash) = some u) :
    exec (.edge d level) s = .next (u.withResponse ⟨.ok, BitVec.ofNat 85 (2 + (!level).toNat)⟩) :=
  exec_edge_of_yieldsBit hl hy ((ingestBit_filling (s := s.withPhase .ash) hp hs).trans hu)

/-- Settles O16: before the fourth bit the Filling step only assembles. -/
theorem fillingEdgeAssemblesBit : Obligations.FillingEdgeAssemblesBit := by
  intro s d level hl hy hp hs hn hnib
  rw [exec_edge_of_filling hl hy hp hs (fillingStep_early (s := s.withPhase .ash) hn), ← assemble_toNat hnib]
  rfl

/-- The fourth bit of a nibble, as a number (R90). -/
theorem assemble_fourth {nib : BitVec 4} (b : Bool) (h : nib.toNat < 8) :
    assemble nib 3#2 b = BitVec.ofNat 4 (nib.toNat + 8 * b.toNat) := by
  rw [assemble_toNat (p := 3#2) h, Nat.mul_comm 8]
  rfl

/-- The state after the fourth bit `b` of a nibble, before the completion check (R90). -/
def State.appendNibble (s : State) (b : Bool) : State :=
  (s.withPbuf (s.pbuf ++ [BitVec.ofNat 4 (s.nib.toNat + 8 * b.toNat)])).withNibble 0#4 0#2

@[simp] theorem State.appendNibble_cfg (s : State) (b : Bool) : (s.appendNibble b).cfg = s.cfg := rfl
@[simp] theorem State.appendNibble_ppos (s : State) (b : Bool) : (s.appendNibble b).ppos = s.ppos + 1 :=
  s.ppos_withPbuf_append _

/-- The Filling step on the fourth bit, as a number, inside the buffer (R90). -/
theorem fillingStep_appends {s : State} {b : Bool} (hn : s.nibpos = 3#2) (hnib : s.nib.toNat < 8) (hc : s.ppos < capacity) :
    fillingStep b s = some (completionCheck (s.appendNibble b)) := by
  rw [fillingStep_fourth hn hc, hn, assemble_fourth b hnib, State.appendNibble]

/-- An edge with the fourth bit of a nibble appends it and checks for completion (R90, R91). -/
theorem exec_edge_of_fourth {s : State} {d : Duration} {level : Bool} (hl : s.cfg.legal = true) (hy : YieldsBit s d)
    (hp : s.hasPayload = false) (hs : s.synced = true) (hn : s.nibpos = 3#2) (hnib : s.nib.toNat < 8)
    (hc : s.ppos < capacity) :
    exec (.edge d level) s = .next ((completionCheck ((s.withPhase .ash).appendNibble (!level))).withResponse
      ⟨.ok, BitVec.ofNat 85 (2 + (!level).toNat)⟩) :=
  exec_edge_of_filling hl hy hp hs (fillingStep_appends (s := s.withPhase .ash) hn hnib hc)

/-- Settles O17: off the fill target the completion check does nothing. -/
theorem fillingEdgeAppendsNibble : Obligations.FillingEdgeAppendsNibble := by
  intro s d level hl hy hp hs hn hnib hc hoff
  rw [exec_edge_of_fourth hl hy hp hs hn hnib hc, completionCheck_of_ne (by simpa using hoff)]
  rfl

/-- Settles O18: the completion check of a single-rate lane only sets `HASPAYLOAD`. -/
theorem singleRateFillCompletes : Obligations.SingleRateFillCompletes := by
  intro s d level hl hy hp hs hn hnib hd hat
  have hc : s.ppos < capacity := by
    have := (len_le_capacity hl).1 hd
    omega
  rw [exec_edge_of_fourth hl hy hp hs hn hnib hc,
    completionCheck_single (s := (s.withPhase .ash).appendNibble _) hd (by simpa using hat)]
  rfl

/-- The raw byte of a pair of nibbles, bit by bit (R47). -/
theorem append_getLsbD_eq_testBit (first second : Nibble) (k : Nat) :
    (first ++ second).getLsbD k = (16 * first.toNat + second.toNat).testBit k := by
  rw [← BitVec.testBit_toNat, append_toNat, Nat.mul_comm]
  rfl

/-- Settles O19: the completion check compacts, and each logical nibble is the taps of its raw byte. -/
theorem doubleRateFillCompacts : Obligations.DoubleRateFillCompacts := by
  intro s d level hl hy hp hs hn hnib hd hat
  have hc : s.ppos < capacity := by
    have := (len_le_capacity hl).2 hd
    omega
  have hraw : (s.pbuf ++ [BitVec.ofNat 4 (s.nib.toNat + 8 * (!level).toNat)]).length = 2 * s.cfg.len := by
    rw [List.length_append, List.length_singleton, ← hat, State.ppos]
  refine ⟨compact s.cfg.ctap (s.pbuf ++ [BitVec.ofNat 4 (s.nib.toNat + 8 * (!level).toNat)]), ?_, ?_, fun i hi => ?_⟩
  · rw [exec_edge_of_fourth hl hy hp hs hn hnib hc,
      completionCheck_double (s := (s.withPhase .ash).appendNibble _) hd (by simpa using hat)]
    rfl
  · rw [compact_length, hraw]
    omega
  · rw [List.getD_eq_getElem?_getD, compact_getElem? _ _ _ hraw i hi, Option.getD_some, pick_toNat]
    simp only [append_getLsbD_eq_testBit]

/-- The reference taps pick the low nibble of the raw byte (R27, R92). -/
theorem pickBits_referenceTaps (first second : Nibble) : pickBits referenceTaps (first ++ second) = second := by
  revert first second
  decide

/-- Settles O20: the low nibble of raw byte `i` is raw nibble `2i + 1`. -/
theorem referenceTapsKeepSecondNibble : Obligations.ReferenceTapsKeepSecondNibble := by
  intro raw n hraw
  refine ⟨by rw [compact_length]; omega, fun i hi => ?_⟩
  have hin : 2 * i + 1 < raw.length := by omega
  rw [compact_getElem? _ _ n hraw i hi, pickBits_referenceTaps, List.getD_eq_getElem _ _ hin, List.getElem?_eq_getElem hin]

end Sys2Proof.Machine
end

section
/-! PROOFS. Whole fills (R44, R90, R91): how many recovered bits one takes, and what a single-rate one stores. -/

namespace Sys2Proof.Machine

/-! ### The number of bits -/

/-- The number of bits a fill has taken, by its cursors: four for each nibble in the buffer, and those in `NIB`. -/
def State.bitCount (s : State) : Nat := 4 * s.ppos + s.nibpos.toNat

/-- The cursors read off the number of bits. -/
theorem State.cursors_of_bitCount (s : State) : s.ppos = s.bitCount / 4 ∧ s.nibpos.toNat = s.bitCount % 4 := by
  have hn := s.nibpos.isLt
  rw [State.bitCount]
  omega

/-- A fill in progress has taken fewer bits than four for each nibble of its target (R39 item 2). -/
theorem Inv.bitCount_lt {s : State} (h : Inv s) (hp : s.hasPayload = false) : s.bitCount < 4 * s.cfg.fillTarget := by
  have hbelow := h.filling_below hp
  have hn := s.nibpos.isLt
  rw [State.bitCount]
  omega

/-- The bit that completes the last nibble is the last of the four for each nibble of the target (R91). -/
theorem last_bit_iff (s : State) :
    (s.nibpos = 3#2 ∧ s.ppos + 1 = s.cfg.fillTarget) ↔ s.bitCount + 1 = 4 * s.cfg.fillTarget := by
  have hn := s.nibpos.isLt
  rw [← BitVec.toNat_inj, State.bitCount, BitVec.toNat_ofNat]
  omega

/-- A recovered bit that leaves the fill in progress counts one. -/
theorem ingestBit_bitCount {s t : State} {b : Bool} (hfill : s.syncState = some .filling)
    (ht : ingestBit b s = some t) (hp' : t.hasPayload = false) : t.bitCount = s.bitCount + 1 := by
  obtain ⟨hs, hp⟩ := State.syncState_eq_filling.1 hfill
  rw [ingestBit_filling hp hs] at ht
  obtain ⟨hn, rfl⟩ | ⟨hn, -, rfl⟩ := fillingStep_some ht
  · have hnext : (s.nibpos + 1#2).toNat = s.nibpos.toNat + 1 := by bv_omega
    rw [State.bitCount, State.withNibble_ppos, State.withNibble_nibpos, hnext, State.bitCount, Nat.add_assoc]
  · obtain ⟨-, hstep⟩ | ⟨-, -, hstep⟩ | ⟨-, -, hstep⟩ := completionCheck_cases
      ((s.withPbuf (s.pbuf ++ [assemble s.nib s.nibpos b])).withNibble 0#4 0#2)
    · rw [hstep, State.bitCount, State.withNibble_ppos, State.ppos_withPbuf_append, State.bitCount, hn]
      rfl
    · simp [hstep] at hp'
    · simp [hstep] at hp'

/-- A recovered bit of a fill is taken: it is the last one and the payload is ready, or it counts one (R90, R91). -/
theorem Inv.ingestBit_filling {s : State} (h : Inv s) (hfill : s.syncState = some .filling) (b : Bool) :
    ∃ t, ingestBit b s = some t ∧ Inv t ∧ t.cfg = s.cfg ∧
      (s.bitCount + 1 = 4 * s.cfg.fillTarget → t.syncState = some .ready) ∧
      (s.bitCount + 1 < 4 * s.cfg.fillTarget → t.syncState = some .filling ∧ t.bitCount = s.bitCount + 1) := by
  obtain ⟨t, ht⟩ := ingestBit_answers b h.ppos_lt_capacity
  have hstate := ingestBit_syncState_of_filling hfill ht
  simp only [last_bit_iff] at hstate
  refine ⟨t, ht, h.of_ingestBit ht, (edgeKeeps_ingestBit ht).wiring.1, fun hlast => ?_, fun hearly => ?_⟩
  · rw [hstate, if_pos hlast]
  · rw [if_neg hearly.ne] at hstate
    exact ⟨hstate, ingestBit_bitCount hfill ht (State.syncState_eq_filling.1 hstate).2⟩

/-- A run of bits too short to complete the fill is counted. -/
theorem ingestBits_below {s : State} (bits : List Bool) (h : Inv s) (hfill : s.syncState = some .filling)
    (hshort : s.bitCount + bits.length < 4 * s.cfg.fillTarget) :
    ∃ t, ingestBits bits s = some t ∧ Inv t ∧ t.cfg = s.cfg ∧ t.syncState = some .filling ∧
      t.bitCount = s.bitCount + bits.length := by
  induction bits generalizing s with
  | nil => exact ⟨s, rfl, h, rfl, hfill, rfl⟩
  | cons b rest ih =>
    rw [List.length_cons] at hshort
    obtain ⟨u, hu, hinv, hcfg, -, hearly⟩ := h.ingestBit_filling hfill b
    obtain ⟨hfill', hcount⟩ := hearly (by omega)
    obtain ⟨t, ht, hinv', hcfg', hstate, hcount'⟩ := ih hinv hfill' (by rw [hcfg]; omega)
    refine ⟨t, ?_, hinv', hcfg'.trans hcfg, hstate, ?_⟩
    · rw [ingestBits, hu, Option.bind_some, ht]
    · rw [hcount', hcount, List.length_cons]
      omega

/-- A run of bits in two parts. -/
theorem ingestBits_append (xs ys : List Bool) (s : State) :
    ingestBits (xs ++ ys) s = (ingestBits xs s).bind (ingestBits ys) := by
  induction xs generalizing s with
  | nil => rfl
  | cons x xs ih =>
    rw [List.cons_append, ingestBits, ingestBits, Option.bind_assoc]
    exact congrArg _ (funext ih)

/-- A run of just the bits the fill still takes makes the payload ready. -/
theorem ingestBits_completes {s : State} (bits : List Bool) (h : Inv s) (hfill : s.syncState = some .filling)
    (hall : s.bitCount + bits.length = 4 * s.cfg.fillTarget) :
    ∃ t, ingestBits bits s = some t ∧ Inv t ∧ t.cfg = s.cfg ∧ t.syncState = some .ready := by
  have hbelow := h.bitCount_lt (State.syncState_eq_filling.1 hfill).2
  obtain rfl | ⟨before, b, rfl⟩ := List.eq_nil_or_concat bits
  · rw [List.length_nil] at hall
    omega
  rw [List.concat_eq_append, List.length_append, List.length_singleton] at hall
  obtain ⟨u, hu, hinv, hcfg, hstate, hcount⟩ := ingestBits_below before h hfill (by omega)
  obtain ⟨t, ht, hinv', hcfg', hlast, -⟩ := hinv.ingestBit_filling hstate b
  refine ⟨t, ?_, hinv', hcfg'.trans hcfg, hlast (by rw [hcount, hcfg]; omega)⟩
  rw [List.concat_eq_append, ingestBits_append, hu, Option.bind_some, ingestBits, ht]
  rfl

/-- Settles O25: the fill starts with no bit taken, and its cursors are the number of bits divided by 4. -/
theorem fillTakesFourBitsPerNibble : Obligations.FillTakesFourBitsPerNibble := by
  intro s bits h hp hs hempty hn
  have hfill := State.syncState_eq_filling.2 ⟨hs, hp⟩
  have hstart : s.bitCount = 0 := by simp [State.bitCount, State.ppos, hempty, hn]
  constructor <;> intro hlength
  · obtain ⟨t, ht, -, -, hstate, hcount⟩ := ingestBits_below bits h hfill (by omega)
    rw [hstart, Nat.zero_add] at hcount
    have hcursors := t.cursors_of_bitCount
    rw [hcount] at hcursors
    exact ⟨t, ht, (State.syncState_eq_filling.1 hstate).2, hcursors⟩
  · obtain ⟨t, ht, hinv, hcfg, hstate⟩ := ingestBits_completes bits h hfill (by omega)
    have hready := (State.syncState_eq_ready.1 hstate).2
    exact ⟨t, ht, hready, hcfg ▸ hinv.ready_len hready, (hinv.ready_nib hready).1⟩

/-! ### The nibbles of a single-rate fill -/

/-- A second write of the buffer hides the first. -/
theorem State.withPbuf_withPbuf (s : State) (m m' : Memory) : (s.withPbuf m).withPbuf m' = s.withPbuf m' := rfl

/-- The nibble of four bits, the first lowest (R44). -/
abbrev nibbleOfBits (b0 b1 b2 b3 : Bool) : Nat := b0.toNat + 2 * b1.toNat + 4 * b2.toNat + 8 * b3.toNat

/-- Four bits fit a nibble. -/
theorem nibbleOfBits_lt (b0 b1 b2 b3 : Bool) : nibbleOfBits b0 b1 b2 b3 < 16 := by
  revert b0 b1 b2 b3
  decide

/-- The nibbles of a bit stream, four bits a nibble (R44). -/
def packNibbles : List Bool → List Nibble
  | b0 :: b1 :: b2 :: b3 :: rest => BitVec.ofNat 4 (nibbleOfBits b0 b1 b2 b3) :: packNibbles rest
  | _ => []

/-- Nibble `i` of a bit stream is made of bits `4i` to `4i + 3`. -/
theorem packNibbles_getD (bits : List Bool) {i : Nat} (hi : 4 * i + 3 < bits.length) :
    ((packNibbles bits).getD i 0#4).toNat = nibbleOfBits (bits.getD (4 * i) false) (bits.getD (4 * i + 1) false)
      (bits.getD (4 * i + 2) false) (bits.getD (4 * i + 3) false) := by
  induction bits using packNibbles.induct generalizing i with
  | case1 b0 b1 b2 b3 rest ih =>
    cases i with
    | zero => exact Nat.mod_eq_of_lt (nibbleOfBits_lt b0 b1 b2 b3)
    | succ i =>
      have hrest : 4 * i + 3 < rest.length := by
        simp only [List.length_cons] at hi
        omega
      simpa [packNibbles, Nat.mul_add] using! ih hrest
  | case2 bits hshort =>
    match bits, hshort, hi with
    | b0 :: b1 :: b2 :: b3 :: rest, hshort, _ => exact absurd rfl (hshort b0 b1 b2 b3 rest)

/-- A run of at least four bits starts with a nibble. -/
theorem exists_first_nibble {bits : List Bool} (h : 4 ≤ bits.length) :
    ∃ b0 b1 b2 b3 rest, bits = b0 :: b1 :: b2 :: b3 :: rest := by
  match bits, h with
  | b0 :: b1 :: b2 :: b3 :: rest, _ => exact ⟨b0, b1, b2, b3, rest, rfl⟩

/-- A run of the bits a single-rate fill still takes, from a nibble boundary, appends their nibbles. -/
theorem ingestBits_single_rate {s : State} {n : Nat} {bits : List Bool} (hcap : s.cfg.len ≤ capacity)
    (hd : s.cfg.dbl = false) (hp : s.hasPayload = false) (hs : s.synced = true) (hv : s.nib = 0#4) (hn : s.nibpos = 0#2)
    (hlen : s.ppos + (n + 1) = s.cfg.len) (hbits : bits.length = 4 * (n + 1)) :
    ingestBits bits s = some (s.withPbuf (s.pbuf ++ packNibbles bits)).markReady := by
  induction n generalizing s bits with
  | zero =>
    obtain ⟨b0, b1, b2, b3, rest, rfl⟩ := exists_first_nibble (bits := bits) (by omega)
    obtain rfl : rest = [] := List.eq_nil_of_length_eq_zero (by simpa using hbits)
    rw [ingestBits_nibble b0 b1 b2 b3 [] hp hs hv hn (by omega),
      completionCheck_single (s := s.withPbuf (s.pbuf ++ [BitVec.ofNat 4 (nibbleOfBits b0 b1 b2 b3)])) hd
        ((s.ppos_withPbuf_append _).trans hlen)]
    rfl
  | succ n ih =>
    obtain ⟨b0, b1, b2, b3, rest, rfl⟩ := exists_first_nibble (bits := bits) (by omega)
    rw [ingestBits_nibble b0 b1 b2 b3 rest hp hs hv hn (by omega), completionCheck_of_ne ?offTarget,
      ih (s := s.withPbuf (s.pbuf ++ [BitVec.ofNat 4 (nibbleOfBits b0 b1 b2 b3)])) hcap hd hp hs hv hn ?count
        (by simpa [Nat.mul_add] using hbits)]
    case offTarget =>
      rw [State.ppos_withPbuf_append, State.withPbuf_cfg, fillTarget_single hd]
      omega
    case count =>
      rw [State.ppos_withPbuf_append, State.withPbuf_cfg]
      omega
    rw [State.withPbuf_withPbuf, packNibbles, State.withPbuf_pbuf, List.append_assoc, List.singleton_append]

/-- Settles O26: the completed fill of O25 holds the nibbles of the bit stream. -/
theorem singleRateFillStoresBitStream : Obligations.SingleRateFillStoresBitStream := by
  intro s bits h hp hs hempty hn hd hbits
  obtain ⟨-, hmin, -⟩ := legal_iff.1 h.legal
  have htarget : bits.length = 4 * s.cfg.fillTarget := by rw [hbits, fillTarget_single hd]
  obtain ⟨t, ht, hready, hlen, -⟩ := (fillTakesFourBitsPerNibble s bits h hp hs hempty hn).2 htarget
  have hv : s.nib = 0#4 := by
    have hwindow := h.nib_window
    rw [hn] at hwindow
    exact BitVec.eq_of_toNat_eq (Nat.lt_one_iff.1 hwindow)
  have hcount : s.ppos + (s.cfg.len - 1 + 1) = s.cfg.len := by
    rw [State.ppos, hempty, List.length_nil]
    omega
  have hstored := ingestBits_single_rate (bits := bits) ((len_le_capacity h.legal).1 hd) hd hp hs hv hn hcount (by omega)
  have hpbuf : t.pbuf = packNibbles bits := by
    rw [ht, hempty] at hstored
    exact congrArg State.pbuf (Option.some.inj hstored)
  refine ⟨t, ht, hready, hlen, fun i hi => ?_⟩
  rw [nibbleNum, hpbuf, packNibbles_getD bits (by omega), nibbleOfBits]

end Sys2Proof.Machine
end

section
/-! PROOFS. The sync window (R32, R46, R87, R88): which bits the shift register holds, and when it equals the pattern. -/

namespace Sys2Proof.Machine

/-- A shift puts the new bit at bit 0, moves the others up by one, and cuts the register at `SYNCLEN` (R46). -/
theorem shiftIn_getLsbD {n : Nat} (hn : n ≤ 64) (sr : BitVec 64) (b : Bool) (k : Nat) :
    (shiftIn n sr b).getLsbD k = (decide (k < n) && if k = 0 then b else sr.getLsbD (k - 1)) := by
  have hb := b.toNat_le
  rw [← BitVec.testBit_toNat, shiftIn_toNat hn, Nat.testBit_mod_two_pow]
  congr 1
  cases k with
  | zero => cases b <;> simp [Nat.testBit_zero]
  | succ k =>
    have hhalf : (2 * sr.toNat + b.toNat) / 2 = sr.toNat := by omega
    rw [Nat.testBit_succ, hhalf, if_neg k.succ_ne_zero, Nat.add_sub_cancel, BitVec.testBit_toNat]

/-- Settles O27, by induction on the bits from the last one back. -/
theorem shiftRegisterHoldsRecentBits : Obligations.ShiftRegisterHoldsRecentBits := by
  intro n bits k hn
  induction bits using List.reverseRecOn generalizing k with
  | nil => simp
  | append_singleton bits b ih =>
    rw [List.foldl_append, List.foldl_cons, List.foldl_nil, shiftIn_getLsbD hn, List.reverse_append]
    cases k with
    | zero => simp
    | succ k =>
      by_cases hk : k + 1 < n
      · simp [ih, hk, show k < n by omega]
      · simp [hk]

/-- The first bit of the pattern is at the top of its window, and it is 1 (R22). -/
theorem syncpat_top_bit {c : LaneConfig} (hl : c.legal = true) :
    0 < c.synclen ∧ c.syncpat.getLsbD (c.synclen - 1) = true := by
  have hne : c.syncpat.toNat ≠ 0 := fun h => (legal_iff.1 hl).1 (BitVec.eq_of_toNat_eq h)
  have hlen : c.synclen = Nat.log2 c.syncpat.toNat + 1 := if_neg hne
  rw [hlen, Nat.add_sub_cancel, ← BitVec.testBit_toNat]
  exact ⟨Nat.succ_pos _, Nat.testBit_log2 hne⟩

/-- The pattern has no bit above its window (R22). -/
theorem syncpat_above_window (c : LaneConfig) {k : Nat} (hk : c.synclen ≤ k) : c.syncpat.getLsbD k = false := by
  rw [← BitVec.testBit_toNat]
  exact Nat.testBit_lt_two_pow (lt_of_lt_of_le (lt_bitlen _) (Nat.pow_le_pow_right (by decide) hk))

/-- The bits of the pattern, first bit most significant (R21, R87). -/
def patternBits (c : LaneConfig) : List Bool := (List.range c.synclen).map fun k => c.syncpat.getLsbD (c.synclen - 1 - k)

/-- From the last one back, the bits of the pattern are those of its number from bit 0 up. -/
theorem patternBits_reverse_getD {c : LaneConfig} {k : Nat} (hk : k < c.synclen) :
    (patternBits c).reverse.getD k false = c.syncpat.getLsbD k := by
  have hlen : (patternBits c).length = c.synclen := by simp [patternBits]
  rw [List.getD_eq_getElem?_getD, List.getElem?_reverse (by rwa [hlen]), hlen, patternBits, List.getElem?_map,
    List.getElem?_range (by omega), Option.map_some, Option.getD_some]
  congr 1
  omega

/-- Settles O28: fewer bits than the window leave its top bit 0, and the bits of the pattern fill the window with it. -/
theorem syncFiresOnThePatternNotBefore : Obligations.SyncFiresOnThePatternNotBefore := by
  intro c hl
  have hn := synclen_le c
  obtain ⟨hpos, htop⟩ := syncpat_top_bit hl
  refine ⟨fun bits hshort hfire => ?_, BitVec.eq_of_getLsbD_eq fun k _ => ?_⟩
  · have hbit := shiftRegisterHoldsRecentBits c.synclen bits (c.synclen - 1) hn
    have hbeyond : bits.reverse.length ≤ c.synclen - 1 := by
      rw [List.length_reverse]
      omega
    rw [hfire, htop, List.getD_eq_default _ _ hbeyond, Bool.and_false] at hbit
    cases hbit
  · rw [← patternBits, shiftRegisterHoldsRecentBits c.synclen (patternBits c) k hn]
    by_cases hk : k < c.synclen
    · rw [patternBits_reverse_getD hk, decide_eq_true hk, Bool.true_and]
    · rw [syncpat_above_window c (not_lt.1 hk), decide_eq_false hk, Bool.false_and]

end Sys2Proof.Machine
end

section
/-! PROOFS. Several lanes (R146): steps of different lanes commute. -/

namespace Sys2Proof.Machine

/-- A step of the system is a step of the lane, put back in its place (R146). -/
theorem System.stepLane_next {n : Nat} {sys a : System n} {k : Fin n} :
    sys.stepLane k = .next a ↔ ∃ t, step sys[k] = .next t ∧ a = sys.set k t := by
  unfold System.stepLane
  cases step sys[k] <;> simp [eq_comm]

/-- Settles O60: each lane is where the other's step left it, and writes to different places commute. -/
theorem laneStepsCommute : Obligations.LaneStepsCommute := by
  intro n sys a b j k hjk ha hb
  obtain ⟨t, ht, rfl⟩ := System.stepLane_next.1 ha
  obtain ⟨u, hu, rfl⟩ := System.stepLane_next.1 hb
  have hne : (j : Nat) ≠ k := Fin.val_ne_of_ne hjk
  refine ⟨(sys.set j t).set k u, System.stepLane_next.2 ⟨u, ?_, rfl⟩, System.stepLane_next.2 ⟨t, ?_, ?_⟩⟩
  · rwa [Fin.getElem_fin, Vector.getElem_set_ne _ _ hne]
  · rwa [Fin.getElem_fin, Vector.getElem_set_ne _ _ hne.symm]
  · exact Vector.set_comm t u hne

end Sys2Proof.Machine
end
